-- ==== Sys2Proof/Word.lean ====
section
/-! DEFINITION. The words of the block: a byte, the 16-bit CRC value, the 32-bit command word (00_scope.md R6, R7). -/

namespace Sys2Proof

/-- A `u8`: a byte of the buffer, `SUM`, `LRC`, `DOUT`, the field `imm8`. -/
abbrev Byte := BitVec 8

/-- A `u16`: the value of the register `CRC`. -/
abbrev Half := BitVec 16

/-- A `u32`: one command word (R40). -/
abbrev Word := BitVec 32

end Sys2Proof
end

