-- ==== Sys2Proof/Syntax.lean ====
section
/-! DEFINITION. The 15 commands with their operands (30_encoding.md R42 to R44). -/

namespace Sys2Proof

/-- One constructor per row of spec/opcode_table.json, in the table's order.
`len` and `addr` are natural numbers taken from `n16`, `b` is the byte `imm8` (R43). -/
inductive Instr where
  /-- `NOP` -/
  | nop
  /-- `CRC16 len` -/
  | crc16 (len : Nat)
  /-- `LRC len` -/
  | lrc (len : Nat)
  /-- `CRC16.APP len` -/
  | crc16App (len : Nat)
  /-- `LRC.APP len` -/
  | lrcApp (len : Nat)
  /-- `CRC16.CHK len` -/
  | crc16Chk (len : Nat)
  /-- `LRC.CHK len` -/
  | lrcChk (len : Nat)
  /-- `CRC.INIT` -/
  | crcInit
  /-- `CRC.UPD b` -/
  | crcUpd (b : Byte)
  /-- `LRC.INIT` -/
  | lrcInit
  /-- `LRC.UPD b` -/
  | lrcUpd (b : Byte)
  /-- `LRC.FIN` -/
  | lrcFin
  /-- `STB addr, b` -/
  | stb (addr : Nat) (b : Byte)
  /-- `LDB addr` -/
  | ldb (addr : Nat)
  /-- `CLRE` -/
  | clre
  deriving DecidableEq, Repr

end Sys2Proof
end

