-- ==== Sys2Proof/WellFormed.lean ====
section
/-! DEFINITION. Which commands have a word: those whose operands fit their fields (30_encoding.md R43, R49). -/

namespace Sys2Proof

/-- A length or an address fits the 16-bit field `n16`: 0..65535 (R43). -/
def fitsN16 (n : Nat) : Bool := decide (n < 65536)

/-- "every command c whose operands fit their fields" (R49).  `b` is a byte by its type. -/
def Instr.wf : Instr → Bool
  | .nop => true
  | .crc16 len => fitsN16 len
  | .lrc len => fitsN16 len
  | .crc16App len => fitsN16 len
  | .lrcApp len => fitsN16 len
  | .crc16Chk len => fitsN16 len
  | .lrcChk len => fitsN16 len
  | .crcInit => true
  | .crcUpd _ => true
  | .lrcInit => true
  | .lrcUpd _ => true
  | .lrcFin => true
  | .stb addr _ => fitsN16 addr
  | .ldb addr => fitsN16 addr
  | .clre => true

end Sys2Proof
end

