-- ==== Sys2Proof/Decode.lean ====
section
/-! DEFINITION. From a command word to a command or ILLEGAL, and back (30_encoding.md R40 to R49).
The block fetches nothing and the spec defines no byte serialisation of a word (R29, R40): the decoder reads the `u32`. -/

namespace Sys2Proof

/-- Why a word is ILLEGAL. -/
inductive Illegal where
  /-- `op` is none of the 15 values of R44 (R45). -/
  | reservedOp
  /-- A field that the command's form says must be 0 is not 0 (R46). -/
  | mustBeZero
  deriving DecidableEq, Repr

/-- What decoding answers: "Cmd or ILLEGAL" (R49). -/
inductive Decoded where
  /-- The word is this command. -/
  | command (i : Instr)
  /-- The word is no command. -/
  | illegal (why : Illegal)
  deriving DecidableEq, Repr

/-- The field `op = w[31:24]` (R41). -/
def opField (w : Word) : Nat := (w.extractLsb' 24 8).toNat

/-- The field `imm8 = w[23:16]` (R41). -/
def imm8Field (w : Word) : Byte := w.extractLsb' 16 8

/-- The field `n16 = w[15:0]`, zero-extended to a natural number (R41, R43). -/
def n16Field (w : Word) : Nat := (w.extractLsb' 0 16).toNat

/-- Form Z: no operand, both fields must be 0 (R42). -/
def formZ (i : Instr) (w : Word) : Decoded :=
  if imm8Field w = 0 ∧ n16Field w = 0 then .command i else .illegal .mustBeZero

/-- Form L, and form A of `LDB`: the operand is `n16`, `imm8` must be 0 (R42). -/
def formN (mk : Nat → Instr) (w : Word) : Decoded :=
  if imm8Field w = 0 then .command (mk (n16Field w)) else .illegal .mustBeZero

/-- Form I: the operand is `imm8`, `n16` must be 0 (R42). -/
def formI (mk : Byte → Instr) (w : Word) : Decoded :=
  if n16Field w = 0 then .command (mk (imm8Field w)) else .illegal .mustBeZero

/-- Form A of `STB`: both fields are operands (R42). -/
def formA (mk : Nat → Byte → Instr) (w : Word) : Decoded :=
  .command (mk (n16Field w) (imm8Field w))

/-- The decode procedure of R49. -/
def decode (w : Word) : Decoded :=
  match opField w with
  | 0x00 => formZ .nop w
  | 0x01 => formN .crc16 w
  | 0x02 => formN .lrc w
  | 0x03 => formN .crc16App w
  | 0x04 => formN .lrcApp w
  | 0x05 => formN .crc16Chk w
  | 0x06 => formN .lrcChk w
  | 0x10 => formZ .crcInit w
  | 0x11 => formI .crcUpd w
  | 0x12 => formZ .lrcInit w
  | 0x13 => formI .lrcUpd w
  | 0x14 => formZ .lrcFin w
  | 0x20 => formA .stb w
  | 0x21 => formN .ldb w
  | 0x30 => formZ .clre w
  | _ => .illegal .reservedOp

/-- The command a word decodes to, if it is one. -/
def Decoded.toOption : Decoded → Option Instr
  | .command i => some i
  | .illegal _ => none

/-- A word from its three fields: `w = op * 2^24 + imm8 * 2^16 + n16` (R41). -/
def packWord (op : Nat) (imm8 : Byte) (n16 : Nat) : Word :=
  BitVec.ofNat 8 op ++ imm8 ++ BitVec.ofNat 16 n16

/-- The word of a command (R44, R49); of a command whose operands fit their fields, the one word that decodes to it. -/
def encode : Instr → Word
  | .nop => packWord 0x00 0 0
  | .crc16 len => packWord 0x01 0 len
  | .lrc len => packWord 0x02 0 len
  | .crc16App len => packWord 0x03 0 len
  | .lrcApp len => packWord 0x04 0 len
  | .crc16Chk len => packWord 0x05 0 len
  | .lrcChk len => packWord 0x06 0 len
  | .crcInit => packWord 0x10 0 0
  | .crcUpd b => packWord 0x11 b 0
  | .lrcInit => packWord 0x12 0 0
  | .lrcUpd b => packWord 0x13 b 0
  | .lrcFin => packWord 0x14 0 0
  | .stb addr b => packWord 0x20 b addr
  | .ldb addr => packWord 0x21 0 addr
  | .clre => packWord 0x30 0 0

/-- The command word whose bits are the low `nbits` bits of `w`, bit 0 the least significant, every bit above them 0.
A command is one 32-bit word (R40), so nothing has bits past 31. -/
def tableWord (nbits w : Nat) : Word := BitVec.ofNat 32 (w % 2 ^ nbits)

/-- The command the decoder reads from a word whose bits are `w`, numbered as spec/opcode_table.json numbers them. -/
def decodeTableWord (nbits w : Nat) : Option Instr :=
  if nbits ≤ 32 then (decode (tableWord nbits w)).toOption else none

end Sys2Proof
end

