-- ==== Sys2Proof/Machine/Checksum.lean ====
section
/-! DEFINITION. The checksum functions (40_range_checksum.md R55 to R60), the functions its laws name (R63), and the two bytes of a CRC (00_scope.md R7).
`crc16 bytes length` and `sum8 bytes length` are for `length` not greater than the number of bytes (R57). -/

namespace Sys2Proof.Machine

/-- The polynomial, 0xA001, reflected (R55; 90_conflicts.md C1: not a CCITT polynomial). -/
def crcPoly : Half := 0xA001#16

/-- The start value of every CRC computation (R57). -/
def crcInitial : Half := 0xFFFF#16

/-- One bit step: shift right, then XOR the polynomial if the bit shifted out is 1 (R55). -/
def crc16Bit (c : Half) : Half := if c.getLsbD 0 then (c >>> 1) ^^^ crcPoly else c >>> 1

/-- `k` bit steps; `T8` and `T16` of the laws of R63 are those with `k` 8 and 16. -/
def crc16Bits : Nat → Half → Half
  | 0, c => c
  | k + 1, c => crc16Bits k (crc16Bit c)

/-- The inverse of the bit step (R63, law L1): bit 15 of the result is the bit that was shifted out. -/
def crc16BitInverse (r : Half) : Half :=
  if r.getLsbD 15 then ((r ^^^ crcPoly) <<< 1) ||| 0x0001#16 else r <<< 1

/-- One byte step: the byte is XORed into bits 7:0, then eight bit steps (R56; log entry 8). -/
def crc16Byte (c : Half) (b : Byte) : Half := crc16Bits 8 (c ^^^ b.setWidth 16)

/-- The loop of R57 over a list of bytes, from the register value `c`; from the CRC of a range it goes on with the bytes
that follow the range (R63, law L3). -/
def crcFeed (c : Half) : List Byte → Half
  | [] => c
  | b :: rest => crcFeed (crc16Byte c b) rest

/-- `crc16(bytes, length)`: from 0xFFFF over the first `length` bytes in ascending order, with no final step (R57). -/
def crc16 (bytes : List Byte) (length : Nat) : Half := crcFeed crcInitial (bytes.take length)

/-- `E` of R63 (law L2): the loop of R57 from 0x0000 over the byte-wise difference of two strings. -/
def crcDifference (m' m : List Byte) : Half := crcFeed 0x0000#16 (List.zipWith (· ^^^ ·) m' m)

/-- The loop of R58 over a list of bytes, from the sum `s`; byte addition is modulo 256. -/
def sumFeed (s : Byte) : List Byte → Byte
  | [] => s
  | b :: rest => sumFeed (s + b) rest

/-- `sum8(bytes, length)` (R58). -/
def sum8 (bytes : List Byte) (length : Nat) : Byte := sumFeed 0x00#8 (bytes.take length)

/-- `lrc_of_sum(s) = ((s xor 0xFF) + 1) and 0xFF`; byte addition drops the ninth bit, which is the mask (R59). -/
def lrcOfSum (s : Byte) : Byte := (s ^^^ 0xFF#8) + 0x01#8

/-- `lrc(bytes, length)` (R60). -/
def lrcOf (bytes : List Byte) (length : Nat) : Byte := lrcOfSum (sum8 bytes length)

/-- `lo8(c) = c[7:0]` (R7). -/
def lo8 (c : Half) : Byte := c.extractLsb' 0 8

/-- `hi8(c) = c[15:8]` (R7). -/
def hi8 (c : Half) : Byte := c.extractLsb' 8 8

/-- `{hi, lo} = hi * 256 + lo` (R7). -/
def ofHiLo (hi lo : Byte) : Half := hi ++ lo

end Sys2Proof.Machine
end

