-- ==== Sys2Proof/Config.lean ====
section
/-! DEFINITION. What one block fixes for good (its parameter `BUF_BYTES`) and what the spec leaves free (the contents of `buf` after Reset). -/

namespace Sys2Proof

/-- The implementation parameter of 00_scope.md R6 (D3: OPEN, "the model takes it as an argument").
It stands in `State.config`, no step changes it, and claims quantify over it (log entry 1). -/
structure Config where
  /-- `BUF_BYTES`, the number of bytes in the frame buffer `buf`. -/
  bufBytes : Nat
  deriving DecidableEq, Repr

/-- The legal values of R6: 4 <= BUF_BYTES <= 65535. -/
abbrev Config.legal (c : Config) : Prop := 4 ≤ c.bufBytes ∧ c.bufBytes ≤ 65535

/-- "Default 256 where a single value is wanted" (R6).  DESIGN CHOICE (log entry 1): the value of `State.reset`. -/
def Config.standard : Config := ⟨256⟩

/-- FREE VALUE (R20, R115; 93_implementation_defined.md U1; log entry 2): `Config.resetByte k a` is what `buf[a]` holds after the
`k`-th Reset until something writes it.  It has no body, so nothing can be proved about its value; it is fixed, so two reads agree. -/
opaque Config.resetByte : Nat → Nat → Byte

end Sys2Proof
end

