-- ==== Sys2Proof/Machine/State.lean ====
section
/-! DEFINITION. The state of the block (10_state.md), what the host still presents, and the state after Reset. -/

namespace Sys2Proof.Machine

/-- The cause codes of 60_exceptions.md R100; `Cause.code` gives the four bits.  Codes 4 to 15 "are never produced"
and a model "may make them unrepresentable" (93_implementation_defined.md U5; log entry 7). -/
inductive Cause where
  /-- code 0, `NONE`: no fault recorded -/
  | none
  /-- code 1, `ILLEGAL`: the command word does not decode -/
  | illegal
  /-- code 2, `RANGE`: the command would reach `buf` at an address `>= BUF_BYTES` -/
  | range
  /-- code 3, `SHORT`: a `.CHK` command's `len` is smaller than the checksum it is to check -/
  | short
  deriving DecidableEq, Repr

/-- What the host presents to the block between commands. -/
inductive HostInput where
  /-- A command word (R16, R40), legal or not. -/
  | command (w : Word)
  /-- The event `Reset` (R115, R116). -/
  | reset
  deriving DecidableEq, Repr

/-- The bytes of `buf` written since Reset, as (address, byte) cells.  Canonical form (`Memory.wf`): addresses strictly rising. -/
abbrev Memory := List Host.Cell

/-- What an address that is not listed holds at this level: no byte written since Reset (log entry 3).
The block's read of such a byte gives the free value `Config.resetByte` (`State.memRead1`). -/
abbrev Memory.unlisted : Option Byte := none

/-- The canonical form: addresses strictly rising.  Every listed cell holds a byte, so none equals `Memory.unlisted`. -/
def Memory.wf : Memory → Bool
  | [] => true
  | c :: rest => rest.all (fun d => decide (c.1 < d.1)) && Memory.wf rest

/-- No listed address lies outside `buf` (R17: addresses 0 .. BUF_BYTES-1). -/
def Memory.inside (bufBytes : Nat) (m : Memory) : Bool := m.all fun c => decide (c.1 < bufBytes)

/-- The state of the block, 10_state.md: `buf`, `CRC`, `SUM`, `LRC`, `DOUT`, `MATCH`, `ERR`, `CAUSE`, "and nothing else";
then the model's own fields: the parameter `BUF_BYTES`, the counter that names the free contents of `buf`,
and what the host has still to present. -/
structure State where
  /-- The register `CRC`, 16 bits (R11). -/
  crc : Half
  /-- The register `SUM`, 8 bits (R12). -/
  sum : Byte
  /-- The register `LRC`, 8 bits (R13). -/
  lrc : Byte
  /-- The register `DOUT`, 8 bits (R14). -/
  dout : Byte
  /-- `STATUS.MATCH` (R15). -/
  matched : Bool
  /-- `STATUS.ERR` (R15). -/
  err : Bool
  /-- `STATUS.CAUSE` (R15, R100). -/
  cause : Cause
  /-- The frame buffer `buf` (R17). -/
  buf : Memory
  /-- The parameter `BUF_BYTES` (R6); nothing changes it (log entry 1). -/
  config : Config
  /-- How many Resets have been taken: names the free contents of `buf` since the last one (log entries 2 and 6). -/
  resets : Nat
  /-- What the host has still to present, oldest first (R16; log entry 4). -/
  inputs : List HostInput
  deriving DecidableEq, Repr

/-- Why the machine stops.  There is no constructor: every fault of the spec is a next state with `ERR` set (60_exceptions.md R101, R104),
and "the block always has a successor state" (93_implementation_defined.md, after its table of entries). -/
inductive Fault
  deriving DecidableEq, Repr

/-- Why an instruction has no meaning. -/
inductive Refusal where
  /-- The instruction has no meaning yet.  Raised by `exec` alone, on no arm as it stands.  Safe. -/
  | notModelled (mnemonic : String)
  deriving DecidableEq, Repr

/-- The state just after the Reset number `k` of a block with parameter `cfg`, the host having `inputs` still to present
(R20, R115; "a model's initial state", R116): the registers at the values of R20, no byte of `buf` written. -/
def State.afterReset (cfg : Config) (k : Nat) (inputs : List HostInput) : State where
  crc := 0xFFFF#16
  sum := 0x00#8
  lrc := 0x00#8
  dout := 0x00#8
  matched := false
  err := false
  cause := .none
  buf := []
  config := cfg
  resets := k
  inputs := inputs

/-- The block right after reset, with the default parameter of R6 and nothing presented yet (log entries 1, 4 and 6). -/
def State.reset : State := State.afterReset Config.standard 0 []

end Sys2Proof.Machine
end

