-- ==== Sys2Proof/Machine/Ops.lean ====
section
/-! DEFINITION. The named operations over memory and registers (00_scope.md R8), the fault procedure (60_exceptions.md R101) and Reset
(70_reset_and_hazards.md R115). -/

namespace Sys2Proof.Machine

/-- The byte listed at address `a`, if one has been written since Reset. -/
def Memory.lookup : Memory → Nat → Option Byte
  | [], _ => Memory.unlisted
  | (k, v) :: rest, a => if k = a then some v else Memory.lookup rest a

/-- Put byte `b` at address `a`, keeping the addresses strictly rising. -/
def Memory.write : Memory → Nat → Byte → Memory
  | [], a, b => [(a, b)]
  | (k, v) :: rest, a, b =>
    if a < k then (a, b) :: (k, v) :: rest
    else if a = k then (a, b) :: rest
    else (k, v) :: Memory.write rest a b

/-- `BUF_BYTES` of this block. -/
def State.bufBytes (s : State) : Nat := s.config.bufBytes

/-- `MemRead(addr, 1)`: the byte written last, or the byte's free but fixed value since Reset (R8, R20, R36; U1). -/
def State.memRead1 (s : State) (addr : Nat) : Byte :=
  (Memory.lookup s.buf addr).getD (Config.resetByte s.resets addr)

/-- `MemRead(addr, 2)`: `{buf[addr+1], buf[addr]}`, little-endian (R8, R27). -/
def State.memRead2 (s : State) (addr : Nat) : Half :=
  ofHiLo (s.memRead1 (addr + 1)) (s.memRead1 addr)

/-- `MemWrite(addr, 1, b)` (R8). -/
def State.memWrite1 (s : State) (addr : Nat) (b : Byte) : State :=
  { s with buf := Memory.write s.buf addr b }

/-- `MemWrite(addr, 2, v)`: the low byte first, little-endian (R8, R27). -/
def State.memWrite2 (s : State) (addr : Nat) (v : Half) : State :=
  (s.memWrite1 addr (lo8 v)).memWrite1 (addr + 1) (hi8 v)

/-- `CRC <- v`. -/
def State.setCrc (s : State) (v : Half) : State := { s with crc := v }

/-- `SUM <- v`. -/
def State.setSum (s : State) (v : Byte) : State := { s with sum := v }

/-- `LRC <- v`. -/
def State.setLrc (s : State) (v : Byte) : State := { s with lrc := v }

/-- `DOUT <- v`. -/
def State.setDout (s : State) (v : Byte) : State := { s with dout := v }

/-- `STATUS.MATCH <- v`. -/
def State.setMatched (s : State) (v : Bool) : State := { s with matched := v }

/-- The host has presented what it had first: `rest` remains. -/
def State.setInputs (s : State) (rest : List HostInput) : State := { s with inputs := rest }

/-- `SUM <- s; LRC <- lrc_of_sum(s)`, as the three range LRC commands do (R66, R68, R70). -/
def State.setLrcResult (s : State) (v : Byte) : State := (s.setSum v).setLrc (lrcOfSum v)

/-- `raise Fault(code)` (R101): the first cause is kept, `ERR` is set, nothing else is written. -/
def State.raiseFault (s : State) (code : Cause) : State :=
  { s with cause := if s.err then s.cause else code, err := true }

/-- `STATUS.ERR <- 0; STATUS.CAUSE <- 0`: the return from a fault (R93, R105). -/
def State.clearFault (s : State) : State := { s with err := false, cause := .none }

/-- The rest of a command after its checks: the fault procedure if a check failed, else the command's effect (R101, R103). -/
def State.unlessFault (s : State) (check : Option Cause) (effect : State) : Host.Outcome State Fault Refusal :=
  match check with
  | some code => .next (s.raiseFault code)
  | none => .next effect

/-- The event Reset (R115, R116): registers and `STATUS` at the values of R20, `buf` at new unspecified contents,
the parameter and what the host has still to present as they were. -/
def State.takeReset (s : State) : State := State.afterReset s.config (s.resets + 1) s.inputs

end Sys2Proof.Machine
end

