-- ==== Sys2Proof/Machine/Operands.lean ====
section
/-! DEFINITION. What the operands `len` and `addr` name in `buf`, and the checks on them (20_memory.md R26, R34; 60_exceptions.md R102).
Every check is over the naturals and never wraps (00_scope.md R7). -/

namespace Sys2Proof.Machine

/-- The covered range `buf[0], ..., buf[len-1]`, ascending, each byte by `MemRead(i, 1)` (R26). -/
def State.covered (s : State) (len : Nat) : List Byte := (List.range len).map s.memRead1

/-- `RANGE` when the first `n` addresses do not all lie in `buf`: `n > BUF_BYTES` (R102). -/
def State.rangeCheck (s : State) (n : Nat) : Option Cause :=
  if n > s.bufBytes then some .range else none

/-- `RANGE` when `addr >= BUF_BYTES` (R91, R92, R102). -/
def State.addrCheck (s : State) (addr : Nat) : Option Cause :=
  if addr ≥ s.bufBytes then some .range else none

/-- A candidate of `len` bytes that ends in a checksum of `width` bytes: `SHORT` when there is no room for it,
else `RANGE` when the candidate passes the end of `buf` (R69, R70, R102). -/
def State.candidateCheck (s : State) (width len : Nat) : Option Cause :=
  if len < width then some .short else s.rangeCheck len

end Sys2Proof.Machine
end

