-- ==== Sys2Proof/Machine/Flags.lean ====
section
/-! DEFINITION. The `STATUS` register as the host reads it (10_state.md R15, R18) and the one computed flag, `MATCH`. -/

namespace Sys2Proof.Machine

/-- The cause code of `STATUS[7:4]` (60_exceptions.md R100). -/
def Cause.code : Cause → BitVec 4
  | .none => 0
  | .illegal => 1
  | .range => 2
  | .short => 3

/-- `STATUS = {CAUSE[3:0], 0, 0, ERR, MATCH}` (R15): bits 3:2 always read 0. -/
def State.status (s : State) : Byte :=
  s.cause.code ++ 0#2 ++ BitVec.ofBool s.err ++ BitVec.ofBool s.matched

/-- `MATCH` of `CRC16.CHK`: 1 if the recomputed CRC equals the stored one (R69). -/
def crcMatches (recomputed stored : Half) : Bool := decide (recomputed = stored)

/-- `MATCH` of `LRC.CHK`: 1 if the recomputed LRC equals the stored one (R70). -/
def lrcMatches (recomputed stored : Byte) : Bool := decide (recomputed = stored)

/-- What the host can observe between two commands (R18): not `buf`. -/
structure Observation where
  /-- `CRC` -/
  crc : Half
  /-- `SUM` -/
  sum : Byte
  /-- `LRC` -/
  lrc : Byte
  /-- `DOUT` -/
  dout : Byte
  /-- `STATUS` -/
  status : Byte
  deriving DecidableEq, Repr

/-- The host's view of a state (R18); observing changes nothing. -/
def State.observe (s : State) : Observation where
  crc := s.crc
  sum := s.sum
  lrc := s.lrc
  dout := s.dout
  status := s.status

end Sys2Proof.Machine
end

