-- ==== Sys2Proof/Machine/Buffer.lean ====
section
/-! DEFINITION. Buffer access and housekeeping (42_buffer_housekeeping.md R90 to R93). -/

namespace Sys2Proof.Machine

/-- `NOP` (R90). -/
def execNop (s : State) : Host.Outcome State Fault Refusal := .next s

/-- `STB addr, b` (R91). -/
def execStb (addr : Nat) (b : Byte) (s : State) : Host.Outcome State Fault Refusal :=
  s.unlessFault (s.addrCheck addr) (s.memWrite1 addr b)

/-- `LDB addr` (R92). -/
def execLdb (addr : Nat) (s : State) : Host.Outcome State Fault Refusal :=
  s.unlessFault (s.addrCheck addr) (s.setDout (s.memRead1 addr))

/-- `CLRE` (R93): `MATCH` is not written. -/
def execClre (s : State) : Host.Outcome State Fault Refusal := .next s.clearFault

end Sys2Proof.Machine
end

