-- ==== Sys2Proof/Machine/RangeChecksum.lean ====
section
/-! DEFINITION. The six range commands (40_range_checksum.md R65 to R70). -/

namespace Sys2Proof.Machine

/-- `CRC16 len` (R65). -/
def execCrc16 (len : Nat) (s : State) : Host.Outcome State Fault Refusal :=
  s.unlessFault (s.rangeCheck len) (s.setCrc (crc16 (s.covered len) len))

/-- `LRC len` (R66). -/
def execLrc (len : Nat) (s : State) : Host.Outcome State Fault Refusal :=
  s.unlessFault (s.rangeCheck len) (s.setLrcResult (sum8 (s.covered len) len))

/-- `CRC16.APP len` (R67): `len` counts the covered bytes only; the CRC goes to `buf[len]`, `buf[len+1]`, low byte first. -/
def execCrc16App (len : Nat) (s : State) : Host.Outcome State Fault Refusal :=
  let c := crc16 (s.covered len) len
  s.unlessFault (s.rangeCheck (len + 2)) ((s.setCrc c).memWrite2 len c)

/-- `LRC.APP len` (R68): `len` counts the covered bytes only; the LRC goes to `buf[len]`. -/
def execLrcApp (len : Nat) (s : State) : Host.Outcome State Fault Refusal :=
  let v := sum8 (s.covered len) len
  s.unlessFault (s.rangeCheck (len + 1)) ((s.setLrcResult v).memWrite1 len (lrcOfSum v))

/-- `CRC16.CHK len` (R69): `len` counts the whole candidate, its CRC included. -/
def execCrc16Chk (len : Nat) (s : State) : Host.Outcome State Fault Refusal :=
  let c := crc16 (s.covered (len - 2)) (len - 2)
  s.unlessFault (s.candidateCheck 2 len) ((s.setCrc c).setMatched (crcMatches c (s.memRead2 (len - 2))))

/-- `LRC.CHK len` (R70): `len` counts the whole raw candidate, its LRC included. -/
def execLrcChk (len : Nat) (s : State) : Host.Outcome State Fault Refusal :=
  let v := sum8 (s.covered (len - 1)) (len - 1)
  s.unlessFault (s.candidateCheck 1 len)
    ((s.setLrcResult v).setMatched (lrcMatches (lrcOfSum v) (s.memRead1 (len - 1))))

end Sys2Proof.Machine
end

