-- ==== Sys2Proof/Machine/Streaming.lean ====
section
/-! DEFINITION. The five streaming commands (41_streaming.md R80 to R84).  None can fault once decoded. -/

namespace Sys2Proof.Machine

/-- `CRC.INIT` (R80). -/
def execCrcInit (s : State) : Host.Outcome State Fault Refusal := .next (s.setCrc crcInitial)

/-- `CRC.UPD b` (R81). -/
def execCrcUpd (b : Byte) (s : State) : Host.Outcome State Fault Refusal := .next (s.setCrc (crc16Byte s.crc b))

/-- `LRC.INIT` (R82): `LRC` is not written. -/
def execLrcInit (s : State) : Host.Outcome State Fault Refusal := .next (s.setSum 0x00#8)

/-- `LRC.UPD b` (R83): byte addition is modulo 256; `LRC` is not written. -/
def execLrcUpd (b : Byte) (s : State) : Host.Outcome State Fault Refusal := .next (s.setSum (s.sum + b))

/-- `LRC.FIN` (R84): `SUM` is not written. -/
def execLrcFin (s : State) : Host.Outcome State Fault Refusal := .next (s.setLrc (lrcOfSum s.sum))

end Sys2Proof.Machine
end

