-- ==== Sys2Proof/Machine/Dispatch.lean ====
section
/-! DEFINITION. One arm per command: the call of its meaning. -/

namespace Sys2Proof.Machine

def exec (i : Instr) (s : State) : Host.Outcome State Fault Refusal :=
  match i with
  | .nop => Sys2Proof.Machine.execNop s
  | .crc16 len => Sys2Proof.Machine.execCrc16 len s
  | .lrc len => Sys2Proof.Machine.execLrc len s
  | .crc16App len => Sys2Proof.Machine.execCrc16App len s
  | .lrcApp len => Sys2Proof.Machine.execLrcApp len s
  | .crc16Chk len => Sys2Proof.Machine.execCrc16Chk len s
  | .lrcChk len => Sys2Proof.Machine.execLrcChk len s
  | .crcInit => Sys2Proof.Machine.execCrcInit s
  | .crcUpd b => Sys2Proof.Machine.execCrcUpd b s
  | .lrcInit => Sys2Proof.Machine.execLrcInit s
  | .lrcUpd b => Sys2Proof.Machine.execLrcUpd b s
  | .lrcFin => Sys2Proof.Machine.execLrcFin s
  | .stb addr b => Sys2Proof.Machine.execStb addr b s
  | .ldb addr => Sys2Proof.Machine.execLdb addr s
  | .clre => Sys2Proof.Machine.execClre s

end Sys2Proof.Machine
end

