-- ==== Sys2Proof/Machine/Step.lean ====
section
/-! DEFINITION. One step: the block takes what the host presents next (10_state.md R16, 00_scope.md R5). -/

namespace Sys2Proof.Machine

/-- A step consumes the head of what the host presents.  A command word is decoded first (R49, R103): a command is executed,
any other word raises `ILLEGAL` (R45, R46).  A Reset is taken between commands (R116).  With nothing presented no state changes (R5; log entry 4). -/
def step (s : State) : Host.Outcome State Fault Refusal :=
  match s.inputs with
  | [] => .next s
  | .reset :: rest => .next (s.setInputs rest).takeReset
  | .command w :: rest =>
    match decode w with
    | .command i => exec i (s.setInputs rest)
    | .illegal _ => .next ((s.setInputs rest).raiseFault .illegal)

/-- `s` with the command word whose bits are `w` presented next, before what the host has still to present (log entry 5). -/
def State.withFetchWord (s : State) (nbits w : Nat) : State :=
  s.setInputs (.command (tableWord nbits w) :: s.inputs)

end Sys2Proof.Machine
end

