-- ==== Sys2Proof/Safety.lean ====
section
/-! DEFINITION. What counts as a safe run of the block, and the spec's tables in the terms claims use:
the opcode map (R44), the fault conditions (R102), the bytes a command stores (R33). -/

namespace Sys2Proof.Machine

/-- What holds of the block from Reset on: a legal parameter (R6), `buf` in canonical form and inside its bounds (R17),
and `CAUSE` is 0 exactly when `ERR` is 0 (R15). -/
abbrev State.Inv (s : State) : Prop :=
  s.config.legal ∧ Memory.wf s.buf = true ∧ Memory.inside s.bufBytes s.buf = true ∧
    (s.err = false ↔ s.cause = Cause.none)

/-- The word of a command as the number R44 writes: `op * 2^24 + imm8 * 2^16 + n16` (R41). -/
def opcodeNumber : Instr → Nat
  | .nop => 0x00000000
  | .crc16 len => 0x01000000 + len
  | .lrc len => 0x02000000 + len
  | .crc16App len => 0x03000000 + len
  | .lrcApp len => 0x04000000 + len
  | .crc16Chk len => 0x05000000 + len
  | .lrcChk len => 0x06000000 + len
  | .crcInit => 0x10000000
  | .crcUpd b => 0x11000000 + b.toNat * 0x10000
  | .lrcInit => 0x12000000
  | .lrcUpd b => 0x13000000 + b.toNat * 0x10000
  | .lrcFin => 0x14000000
  | .stb addr b => 0x20000000 + b.toNat * 0x10000 + addr
  | .ldb addr => 0x21000000 + addr
  | .clre => 0x30000000

/-- The fault a command takes in a state, read off the table of 60_exceptions.md R102. -/
def commandFault (i : Instr) (s : State) : Option Cause :=
  match i with
  | .nop => none
  | .crc16 len => if s.bufBytes < len then some .range else none
  | .lrc len => if s.bufBytes < len then some .range else none
  | .crc16App len => if s.bufBytes < len + 2 then some .range else none
  | .lrcApp len => if s.bufBytes < len + 1 then some .range else none
  | .crc16Chk len => if len < 2 then some .short else if s.bufBytes < len then some .range else none
  | .lrcChk len => if len < 1 then some .short else if s.bufBytes < len then some .range else none
  | .crcInit => none
  | .crcUpd _ => none
  | .lrcInit => none
  | .lrcUpd _ => none
  | .lrcFin => none
  | .stb addr _ => if s.bufBytes ≤ addr then some .range else none
  | .ldb addr => if s.bufBytes ≤ addr then some .range else none
  | .clre => none

/-- The addresses a command stores to when it does not fault (20_memory.md R32, R33). -/
def storesAt : Instr → List Nat
  | .nop => []
  | .crc16 _ => []
  | .lrc _ => []
  | .crc16App len => [len, len + 1]
  | .lrcApp len => [len]
  | .crc16Chk _ => []
  | .lrcChk _ => []
  | .crcInit => []
  | .crcUpd _ => []
  | .lrcInit => []
  | .lrcUpd _ => []
  | .lrcFin => []
  | .stb addr _ => [addr]
  | .ldb _ => []
  | .clre => []

/-- Commands executed one after the other, each to completion before the next (R16, R36). -/
def execAll : List Instr → State → Host.Outcome State Fault Refusal
  | [], s => .next s
  | i :: rest, s =>
    match exec i s with
    | .next t => execAll rest t
    | .fault r => .fault r
    | .refused r => .refused r

/-- A clean run: none of the commands faults where it is executed. -/
def faultFree : List Instr → State → Bool
  | [], _ => true
  | i :: rest, s =>
    (commandFault i s).isNone &&
      match exec i s with
      | .next t => faultFree rest t
      | .fault _ => false
      | .refused _ => false

end Sys2Proof.Machine
end

