-- ==== Sys2Proof/Certificates/Slice0/Obligations.lean ====
section
/-! DEFINITION. The statements for the provers, one per rule or law of spec/, in the terms of the model and of Sys2Proof/Safety.lean. -/

open Sys2Proof Sys2Proof.Machine

/-! ### Encoding (30_encoding.md) -/

/-- Every command whose operands fit their fields is read back from its own word, with every operand (30_encoding.md section 5). -/
def Obligations.DecodeOfEncode : Prop :=
  ∀ i : Instr, i.wf = true → decode (encode i) = .command i

/-- Every legal word is the word of the command it decodes to (30_encoding.md section 5). -/
def Obligations.EncodeOfDecode : Prop :=
  ∀ (w : Word) (i : Instr), decode w = .command i → i.wf = true ∧ encode i = w

/-- R41, R43, R44: a word decodes to a command exactly when it is that command's row of the opcode map,
`op * 2^24 + imm8 * 2^16 + n16`, with `len`, `addr` and `b` taken from the fields unchanged. -/
def Obligations.DecodeFollowsOpcodeMap : Prop :=
  ∀ (w : Word) (i : Instr), decode w = .command i ↔ i.wf = true ∧ w.toNat = opcodeNumber i

/-- R45: a word with a reserved `op` decodes to nothing, faults with `ILLEGAL` and has no other effect. -/
def Obligations.ReservedOpcodeFaultsIllegal : Prop :=
  ∀ (w : Word),
    let op := w.toNat / 0x1000000
    (0x07 ≤ op ∧ op ≤ 0x0F ∨ 0x15 ≤ op ∧ op ≤ 0x1F ∨ 0x22 ≤ op ∧ op ≤ 0x2F ∨ 0x31 ≤ op ∧ op ≤ 0xFF) →
    decode w = .illegal .reservedOp ∧
    ∀ (s : State) (rest : List HostInput), s.inputs = .command w :: rest →
      step s = .next { s with inputs := rest, err := true, cause := if s.err then s.cause else .illegal }

/-- R46: a word with a legal `op` and a bit set in a field its form says must be 0 faults with `ILLEGAL` and has no other effect. -/
def Obligations.MustBeZeroFieldFaultsIllegal : Prop :=
  (∀ (w : Word),
    let op := w.toNat / 0x1000000
    let imm8 := w.toNat / 0x10000 % 0x100
    let n16 := w.toNat % 0x10000
    ((op = 0x00 ∨ op = 0x10 ∨ op = 0x12 ∨ op = 0x14 ∨ op = 0x30) ∧ (imm8 ≠ 0 ∨ n16 ≠ 0) ∨
      (1 ≤ op ∧ op ≤ 6 ∨ op = 0x21) ∧ imm8 ≠ 0 ∨
      (op = 0x11 ∨ op = 0x13) ∧ n16 ≠ 0) →
    decode w = .illegal .mustBeZero ∧
    ∀ (s : State) (rest : List HostInput), s.inputs = .command w :: rest →
      step s = .next { s with inputs := rest, err := true, cause := if s.err then s.cause else .illegal }) ∧
  decode 0x01010006#32 = .illegal .mustBeZero ∧ decode 0x10000001#32 = .illegal .mustBeZero ∧
  decode 0x11AB0001#32 = .illegal .mustBeZero ∧ decode 0x21FF0000#32 = .illegal .mustBeZero

/-- Words written out in 30_encoding.md section 6 and 95_test_vectors.md decode to the commands they stand for. -/
def Obligations.SampleWordsDecode : Prop :=
  decode 0x10000000#32 = .command .crcInit ∧ decode 0x03000006#32 = .command (.crc16App 6) ∧
  decode 0x130A0000#32 = .command (.lrcUpd 0x0A#8) ∧ decode 0x20FF0002#32 = .command (.stb 2 0xFF#8) ∧
  decode 0x21000007#32 = .command (.ldb 7) ∧ decode 0x30000000#32 = .command .clre ∧
  decode 0x05000010#32 = .command (.crc16Chk 16)

/-! ### The machine: steps, Reset, runs -/

/-- A step at a presented word that decodes to a command is that command's execution, the word consumed;
`withFetchWord` presents a word of the opcode table so (00_scope.md section 5, 10_state.md section 3). -/
def Obligations.StepRunsPresentedCommand : Prop :=
  (∀ (s : State) (w : Word) (i : Instr) (rest : List HostInput),
    s.inputs = .command w :: rest → decode w = .command i → step s = exec i { s with inputs := rest }) ∧
  (∀ (s : State) (n : Nat) (i : Instr), decodeTableWord 32 n = some i → step (s.withFetchWord 32 n) = exec i s)

/-- With nothing presented no state changes: the model's choice (log entry 4) for "between commands no state changes". -/
def Obligations.StepWithNothingPresented : Prop :=
  ∀ s : State, s.inputs = [] → step s = .next s

/-- Reset puts every register and every field of `STATUS` to the value of the reset table and leaves `buf` with unspecified contents
(70_reset_and_hazards.md section 1, 10_state.md section 7).  The model's own clauses: no byte of `buf` is known any more and each has the
free value of the new Reset (log entry 2, DESIGN CHOICE of form), the counter `resets` goes up by one (log entry 6, DESIGN CHOICE), and the
parameter and what the host has still to present stay (log entry 9, DEDUCED). -/
def Obligations.ResetEffect : Prop :=
  ∀ (s : State) (rest : List HostInput), s.inputs = .reset :: rest →
    ∃ t, step s = .next t ∧ t.crc = 0xFFFF#16 ∧ t.sum = 0x00#8 ∧ t.lrc = 0x00#8 ∧ t.dout = 0x00#8 ∧
      t.matched = false ∧ t.err = false ∧ t.cause = .none ∧ t.config = s.config ∧ t.inputs = rest ∧
      t.resets = s.resets + 1 ∧ ∀ a, Memory.lookup t.buf a = none ∧ t.memRead1 a = Config.resetByte t.resets a

/-- R20: the state after Reset, and the unspecified contents of `buf` are stable:
a byte that no command in between stores to reads as it did. -/
def Obligations.ResetValuesAndStableBuffer : Prop :=
  (∀ (cfg : Config) (k : Nat) (inputs : List HostInput),
    let s := State.afterReset cfg k inputs
    s.crc = 0xFFFF#16 ∧ s.sum = 0x00#8 ∧ s.lrc = 0x00#8 ∧ s.dout = 0x00#8 ∧ s.matched = false ∧ s.err = false ∧
      s.cause = .none ∧ s.status = 0x00#8 ∧ ∀ a, s.memRead1 a = Config.resetByte k a) ∧
  (∀ (is : List Instr) (s : State) (a : Nat), (∀ i ∈ is, a ∉ storesAt i) →
    ∃ t, execAll is s = .next t ∧ t.memRead1 a = s.memRead1 a)

/-- Every state just after Reset of a block with a legal parameter meets the invariant; so does `State.reset`. -/
def Obligations.ResetMeetsInvariant : Prop :=
  (∀ (cfg : Config) (k : Nat) (inputs : List HostInput), cfg.legal → (State.afterReset cfg k inputs).Inv) ∧ State.reset.Inv

/-- Every step, whatever is presented, keeps the invariant: a legal parameter, a canonical `buf` inside its bounds,
and `CAUSE` 0 exactly when `ERR` is 0. -/
def Obligations.StepKeepsInvariant : Prop :=
  ∀ s t : State, s.Inv → step s = .next t → t.Inv

/-- The block never stops, consumes exactly what was presented first, and never changes its parameter
(10_state.md section 3; "the block always has a successor state", 93_implementation_defined.md). -/
def Obligations.StepAlwaysAnswersNext : Prop :=
  ∀ s : State, ∃ t, step s = .next t ∧ t.inputs = s.inputs.tail ∧ t.config = s.config

/-- A run ends when the list is exhausted: after as many steps as there are inputs nothing is left to present,
and further steps (the model's choice, log entry 4) change nothing (70_reset_and_hazards.md section 4). -/
def Obligations.RunEndsWithItsInputs : Prop :=
  ∀ s : State, ∃ t, Sys2Proof.core.run s.inputs.length s = .next t ∧ t.inputs = [] ∧
    ∀ k, Sys2Proof.core.run (s.inputs.length + k) s = .next t

/-! ### Faults and STATUS (60_exceptions.md, 10_state.md) -/

/-- R101: the fault procedure keeps the first cause, sets `ERR` and writes nothing else;
a command that faults does exactly that and is precise. -/
def Obligations.FaultProcedure : Prop :=
  (∀ (s : State) (code : Cause),
    s.raiseFault code = { s with err := true, cause := if s.err = false then code else s.cause }) ∧
  (∀ (i : Instr) (s : State) (code : Cause), commandFault i s = some code →
    exec i s = .next { s with err := true, cause := if s.err = false then code else s.cause })

/-- The table of fault conditions is complete (60_exceptions.md section 1): where it names no fault the command executes and
leaves `ERR` and `CAUSE` alone, but for `CLRE`, which clears them. -/
def Obligations.FaultTableIsComplete : Prop :=
  ∀ (i : Instr) (s : State), commandFault i s = none →
    ∃ t, exec i s = .next t ∧
      (i = .clre → t.err = false ∧ t.cause = .none) ∧ (i ≠ .clre → t.err = s.err ∧ t.cause = s.cause)

/-- `SHORT` and `RANGE` never hold together for a legal parameter, and a word that is no command
is the fault whatever its operands (60_exceptions.md section 1, priority). -/
def Obligations.OneFaultPerCommand : Prop :=
  (∀ (s : State) (len : Nat), s.config.legal → ¬(len < 2 ∧ s.bufBytes < len)) ∧
  (∀ (s : State) (w : Word) (why : Illegal) (rest : List HostInput),
    s.inputs = .command w :: rest → decode w = .illegal why →
    step s = .next ({ s with inputs := rest }.raiseFault .illegal))

/-- R104: after a fault the next command executes normally: with any other `STATUS` before it, a command does the same to every register,
to `buf` and to everything else, and faults where it faulted.  `STATUS` after it is told field by field: without a fault a `.CHK` command
gives the same `MATCH`, every other command leaves `MATCH`, and `ERR` and `CAUSE` stay but for `CLRE`, which clears them; a fault leaves
`MATCH`, sets `ERR`, and writes `CAUSE` only where `ERR` was 0. -/
def Obligations.StatusIsNoInput : Prop :=
  ∀ (i : Instr) (s : State) (m e : Bool) (c : Cause),
    commandFault i { s with matched := m, err := e, cause := c } = commandFault i s ∧
    ∃ t t', exec i s = .next t ∧ exec i { s with matched := m, err := e, cause := c } = .next t' ∧
      t' = { t with matched := t'.matched, err := t'.err, cause := t'.cause } ∧
      (commandFault i s = none →
        (∀ len, i = .crc16Chk len ∨ i = .lrcChk len → t'.matched = t.matched) ∧
        ((∀ len, i ≠ .crc16Chk len ∧ i ≠ .lrcChk len) → t'.matched = m) ∧
        (i = .clre → t'.err = false ∧ t'.cause = .none) ∧ (i ≠ .clre → t'.err = e ∧ t'.cause = c)) ∧
      (∀ code, commandFault i s = some code → t'.matched = m ∧ t'.err = true ∧ t'.cause = if e then c else code)

/-- `ERR` is sticky and `CAUSE` keeps the first cause: only `CLRE` and Reset clear them (10_state.md section 2). -/
def Obligations.OnlyClreAndResetClearErr : Prop :=
  ∀ s t : State, step s = .next t → s.err = true →
    s.inputs.head? ≠ some .reset →
    (∀ w, s.inputs.head? = some (.command w) → decode w ≠ .command .clre) →
    t.err = true ∧ t.cause = s.cause

/-- The layout of `STATUS`, bit by bit, and the four cause codes (10_state.md section 2, 60_exceptions.md section 1); what the host
observes (10_state.md section 5) tells it every register and every field of `STATUS`. -/
def Obligations.StatusLayout : Prop :=
  (∀ s : State,
    s.status.getLsbD 0 = s.matched ∧ s.status.getLsbD 1 = s.err ∧ s.status.getLsbD 2 = false ∧ s.status.getLsbD 3 = false ∧
    s.status.toNat / 16 =
      (match s.cause with
        | .none => 0
        | .illegal => 1
        | .range => 2
        | .short => 3)) ∧
  (∀ s t : State, s.observe = t.observe →
    s.crc = t.crc ∧ s.sum = t.sum ∧ s.lrc = t.lrc ∧ s.dout = t.dout ∧ s.matched = t.matched ∧ s.err = t.err ∧ s.cause = t.cause)

/-- `MATCH` changes only by a `.CHK` command that does not fault, and by Reset (10_state.md section 2). -/
def Obligations.MatchChangesOnlyByCheck : Prop :=
  ∀ s t : State, step s = .next t → t.matched ≠ s.matched →
    s.inputs.head? = some .reset ∨
    ∃ w len rest, s.inputs = .command w :: rest ∧
      (decode w = .command (.crc16Chk len) ∧ 2 ≤ len ∧ len ≤ s.bufBytes ∨
        decode w = .command (.lrcChk len) ∧ 1 ≤ len ∧ len ≤ s.bufBytes)

/-- A run of commands without `CLRE` ends with `ERR` 0 exactly when it began so and no command was refused along the way
(92_eei_decisions.md D19). -/
def Obligations.ErrTellsWhetherRunWasClean : Prop :=
  ∀ (is : List Instr) (s : State), (∀ i ∈ is, i ≠ .clre) →
    ∃ t, execAll is s = .next t ∧ (t.err = false ↔ s.err = false ∧ faultFree is s = true)

/-! ### What commands write (10_state.md section 6, 20_memory.md) -/

/-- The write table, column by column: a command leaves every register, every field of `STATUS`, every byte of `buf` and every field of the
model's own that the table does not name for it exactly as it was.  `ERR` and `CAUSE` stay where the command does not fault and is not `CLRE`
(what a fault writes there is `FaultProcedure`). -/
def Obligations.CommandsWriteOnlyTheirRegisters : Prop :=
  ∀ (i : Instr) (s : State), ∃ t, exec i s = .next t ∧
    ((∀ b len, i ≠ .crcInit ∧ i ≠ .crcUpd b ∧ i ≠ .crc16 len ∧ i ≠ .crc16App len ∧ i ≠ .crc16Chk len) → t.crc = s.crc) ∧
    ((∀ b len, i ≠ .lrcInit ∧ i ≠ .lrcUpd b ∧ i ≠ .lrc len ∧ i ≠ .lrcApp len ∧ i ≠ .lrcChk len) → t.sum = s.sum) ∧
    ((∀ len, i ≠ .lrcFin ∧ i ≠ .lrc len ∧ i ≠ .lrcApp len ∧ i ≠ .lrcChk len) → t.lrc = s.lrc) ∧
    ((∀ addr, i ≠ .ldb addr) → t.dout = s.dout) ∧
    ((∀ len, i ≠ .crc16Chk len ∧ i ≠ .lrcChk len) → t.matched = s.matched) ∧
    (commandFault i s = none → i ≠ .clre → t.err = s.err ∧ t.cause = s.cause) ∧
    (storesAt i = [] → t.buf = s.buf) ∧
    (∀ a, a ∉ storesAt i → t.memRead1 a = s.memRead1 a) ∧
    t.config = s.config ∧ t.resets = s.resets ∧ t.inputs = s.inputs

/-- R32: the four commands used for validation never write `buf`; `CRC16.APP` and `LRC.APP` write their checksum bytes and no other;
no range command writes a byte of its own covered range. -/
def Obligations.RangeCommandsArePure : Prop :=
  ∀ (len : Nat) (s : State),
    (∀ i ∈ [Instr.crc16 len, .lrc len, .crc16Chk len, .lrcChk len], ∃ t, exec i s = .next t ∧ t.buf = s.buf) ∧
    (len + 2 ≤ s.bufBytes → ∃ t, exec (.crc16App len) s = .next t ∧
      t.memRead1 len = lo8 (crc16 (s.covered len) len) ∧ t.memRead1 (len + 1) = hi8 (crc16 (s.covered len) len) ∧
      ∀ a, a ≠ len → a ≠ len + 1 → t.memRead1 a = s.memRead1 a) ∧
    (len + 1 ≤ s.bufBytes → ∃ t, exec (.lrcApp len) s = .next t ∧ t.memRead1 len = lrcOf (s.covered len) len ∧
      ∀ a, a ≠ len → t.memRead1 a = s.memRead1 a) ∧
    (∀ i ∈ [Instr.crc16 len, .lrc len, .crc16App len, .lrcApp len, .crc16Chk len, .lrcChk len],
      ∃ t, exec i s = .next t ∧ ∀ a < len, t.memRead1 a = s.memRead1 a)

/-- Program order (20_memory.md section 7): an `LDB` reads the byte the latest command stored at its address, through any commands
in between that do not store there, be it an `STB`, a byte of an appended CRC or an appended LRC. -/
def Obligations.LoadReadsLatestStore : Prop :=
  ∀ (s : State) (a : Nat) (b : Byte) (between : List Instr), (∀ i ∈ between, a ∉ storesAt i) → a < s.bufBytes →
    (∃ t, execAll (.stb a b :: (between ++ [.ldb a])) s = .next t ∧ t.dout = b) ∧
    (a + 1 < s.bufBytes →
      ∃ t, execAll (.crc16App a :: (between ++ [.ldb a])) s = .next t ∧ t.dout = lo8 (crc16 (s.covered a) a)) ∧
    (1 ≤ a → ∃ t, execAll (.crc16App (a - 1) :: (between ++ [.ldb a])) s = .next t ∧
      t.dout = hi8 (crc16 (s.covered (a - 1)) (a - 1))) ∧
    (∃ t, execAll (.lrcApp a :: (between ++ [.ldb a])) s = .next t ∧ t.dout = lrcOf (s.covered a) a)

/-- The commands that never touch `buf` (20_memory.md section 1) do the same over any contents of `buf`, written or not. -/
def Obligations.StreamingIgnoresBuffer : Prop :=
  ∀ (b : Byte) (s : State) (m : Memory) (k : Nat),
    ∀ i ∈ [Instr.nop, .crcInit, .crcUpd b, .lrcInit, .lrcUpd b, .lrcFin, .clre],
      ∃ t, exec i s = .next t ∧ t.buf = s.buf ∧ exec i { s with buf := m, resets := k } = .next { t with buf := m, resets := k }

/-! ### The range commands (40_range_checksum.md R65 to R70) -/

/-- R65: `CRC16 len`, its encoding, its fault, its effect (whatever `CRC` held), the empty range and the example. -/
def Obligations.Crc16Effect : Prop :=
  (∀ len < 65536, decode (BitVec.ofNat 32 (0x01000000 + len)) = .command (.crc16 len)) ∧
  (∀ (len : Nat) (s : State), s.bufBytes < len → exec (.crc16 len) s = .next (s.raiseFault .range)) ∧
  (∀ (len : Nat) (s : State) (old : Half), len ≤ s.bufBytes →
    exec (.crc16 len) { s with crc := old } = .next { s with crc := crc16 (s.covered len) len }) ∧
  (∀ s : State, exec (.crc16 0) s = .next { s with crc := 0xFFFF#16 }) ∧
  (∀ s : State, 6 ≤ s.bufBytes → s.covered 6 = [0x01#8, 0x03#8, 0x00#8, 0x00#8, 0x00#8, 0x02#8] →
    exec (.crc16 6) s = .next { s with crc := 0x0BC4#16 })

/-- R66: `LRC len`, its encoding, its fault, its effect (whatever `SUM` held), the corner cases and the example. -/
def Obligations.LrcEffect : Prop :=
  (∀ len < 65536, decode (BitVec.ofNat 32 (0x02000000 + len)) = .command (.lrc len)) ∧
  (∀ (len : Nat) (s : State), s.bufBytes < len → exec (.lrc len) s = .next (s.raiseFault .range)) ∧
  (∀ (len : Nat) (s : State) (old : Byte), len ≤ s.bufBytes →
    exec (.lrc len) { s with sum := old } =
      .next { s with sum := sum8 (s.covered len) len, lrc := lrcOfSum (sum8 (s.covered len) len) }) ∧
  (∀ s : State, exec (.lrc 0) s = .next { s with sum := 0x00#8, lrc := 0x00#8 }) ∧
  (∀ (len : Nat) (s : State), len ≤ s.bufBytes →
    ((((s.covered len).map BitVec.toNat).sum % 256 = 0 → exec (.lrc len) s = .next { s with sum := 0x00#8, lrc := 0x00#8 }) ∧
    (((s.covered len).map BitVec.toNat).sum % 256 = 0x80 → exec (.lrc len) s = .next { s with sum := 0x80#8, lrc := 0x80#8 }))) ∧
  (∀ s : State, 6 ≤ s.bufBytes → s.covered 6 = [0x01#8, 0x01#8, 0x00#8, 0x00#8, 0x00#8, 0x08#8] →
    exec (.lrc 6) s = .next { s with sum := 0x0A#8, lrc := 0xF6#8 })

/-- R67: `CRC16.APP len`, its encoding, its fault, its effect on registers and on every byte of `buf`, the empty range and the example. -/
def Obligations.Crc16AppEffect : Prop :=
  (∀ len < 65536, decode (BitVec.ofNat 32 (0x03000000 + len)) = .command (.crc16App len)) ∧
  (∀ (len : Nat) (s : State), s.bufBytes < len + 2 → exec (.crc16App len) s = .next (s.raiseFault .range)) ∧
  (∀ (len : Nat) (s : State), len + 2 ≤ s.bufBytes →
    let c := crc16 (s.covered len) len
    ∃ t, exec (.crc16App len) s = .next t ∧ t = { s with crc := c, buf := t.buf } ∧
      t.memRead1 len = lo8 c ∧ t.memRead1 (len + 1) = hi8 c ∧
      ∀ a, a ≠ len → a ≠ len + 1 → t.memRead1 a = s.memRead1 a) ∧
  (∀ s : State, 2 ≤ s.bufBytes →
    ∃ t, exec (.crc16App 0) s = .next t ∧ t.memRead1 0 = 0xFF#8 ∧ t.memRead1 1 = 0xFF#8) ∧
  (∀ s : State, 8 ≤ s.bufBytes → s.covered 6 = [0x01#8, 0x03#8, 0x00#8, 0x00#8, 0x00#8, 0x02#8] →
    ∃ t, exec (.crc16App 6) s = .next t ∧ t.crc = 0x0BC4#16 ∧
      t.covered 8 = [0x01#8, 0x03#8, 0x00#8, 0x00#8, 0x00#8, 0x02#8, 0xC4#8, 0x0B#8])

/-- R68: `LRC.APP len`, its encoding, its fault, its effect on registers and on every byte of `buf`, the empty range and the example. -/
def Obligations.LrcAppEffect : Prop :=
  (∀ len < 65536, decode (BitVec.ofNat 32 (0x04000000 + len)) = .command (.lrcApp len)) ∧
  (∀ (len : Nat) (s : State), s.bufBytes < len + 1 → exec (.lrcApp len) s = .next (s.raiseFault .range)) ∧
  (∀ (len : Nat) (s : State), len + 1 ≤ s.bufBytes →
    let v := sum8 (s.covered len) len
    ∃ t, exec (.lrcApp len) s = .next t ∧ t = { s with sum := v, lrc := lrcOfSum v, buf := t.buf } ∧
      t.memRead1 len = lrcOfSum v ∧ ∀ a, a ≠ len → t.memRead1 a = s.memRead1 a) ∧
  (∀ s : State, 1 ≤ s.bufBytes → ∃ t, exec (.lrcApp 0) s = .next t ∧ t.memRead1 0 = 0x00#8) ∧
  (∀ s : State, 7 ≤ s.bufBytes → s.covered 6 = [0x01#8, 0x01#8, 0x00#8, 0x00#8, 0x00#8, 0x08#8] →
    ∃ t, exec (.lrcApp 6) s = .next t ∧ t.sum = 0x0A#8 ∧ t.lrc = 0xF6#8 ∧ t.memRead1 6 = 0xF6#8)

/-- R69: `CRC16.CHK len`, its encoding, its two faults, its effect, what `MATCH` compares, the residue, the empty range and the example. -/
def Obligations.Crc16ChkEffect : Prop :=
  (∀ len < 65536, decode (BitVec.ofNat 32 (0x05000000 + len)) = .command (.crc16Chk len)) ∧
  (∀ (len : Nat) (s : State),
    if len < 2 then exec (.crc16Chk len) s = .next (s.raiseFault .short)
    else if s.bufBytes < len then exec (.crc16Chk len) s = .next (s.raiseFault .range)
    else
      let c := crc16 (s.covered (len - 2)) (len - 2)
      ∃ m, exec (.crc16Chk len) s = .next { s with crc := c, matched := m } ∧
        (m = true ↔ c = s.memRead2 (len - 2)) ∧
        (m = true ↔ lo8 c = s.memRead1 (len - 2) ∧ hi8 c = s.memRead1 (len - 1)) ∧
        (m = true ↔ crc16 (s.covered len) len = 0x0000#16)) ∧
  (∀ (len : Nat) (s : State), s.config.legal → ¬(len < 2 ∧ s.bufBytes < len)) ∧
  (∀ s : State, 2 ≤ s.bufBytes →
    ∃ m, exec (.crc16Chk 2) s = .next { s with crc := 0xFFFF#16, matched := m } ∧
      (m = true ↔ s.memRead1 0 = 0xFF#8 ∧ s.memRead1 1 = 0xFF#8)) ∧
  (∀ (s : State) (last : Byte), 8 ≤ s.bufBytes →
    s.covered 8 = [0x01#8, 0x03#8, 0x00#8, 0x00#8, 0x00#8, 0x02#8, 0xC4#8, last] →
    (last = 0x0B#8 → exec (.crc16Chk 8) s = .next { s with crc := 0x0BC4#16, matched := true }) ∧
    (last = 0x0A#8 → exec (.crc16Chk 8) s = .next { s with crc := 0x0BC4#16, matched := false }))

/-- R70: `LRC.CHK len`, its encoding, its two faults, its effect, what `MATCH` compares, the whole sum, the empty range and the example. -/
def Obligations.LrcChkEffect : Prop :=
  (∀ len < 65536, decode (BitVec.ofNat 32 (0x06000000 + len)) = .command (.lrcChk len)) ∧
  (∀ (len : Nat) (s : State),
    if len < 1 then exec (.lrcChk len) s = .next (s.raiseFault .short)
    else if s.bufBytes < len then exec (.lrcChk len) s = .next (s.raiseFault .range)
    else
      let v := sum8 (s.covered (len - 1)) (len - 1)
      ∃ m, exec (.lrcChk len) s = .next { s with sum := v, lrc := lrcOfSum v, matched := m } ∧
        (m = true ↔ lrcOfSum v = s.memRead1 (len - 1)) ∧
        (m = true ↔ sum8 (s.covered len) len = 0x00#8)) ∧
  (∀ s : State, 1 ≤ s.bufBytes →
    ∃ m, exec (.lrcChk 1) s = .next { s with sum := 0x00#8, lrc := 0x00#8, matched := m } ∧
      (m = true ↔ s.memRead1 0 = 0x00#8)) ∧
  (∀ (s : State) (last : Byte), 7 ≤ s.bufBytes →
    s.covered 7 = [0x01#8, 0x01#8, 0x00#8, 0x00#8, 0x00#8, 0x08#8, last] →
    (last = 0xF6#8 → exec (.lrcChk 7) s = .next { s with sum := 0x0A#8, lrc := 0xF6#8, matched := true }) ∧
    (last = 0xF7#8 → exec (.lrcChk 7) s = .next { s with sum := 0x0A#8, lrc := 0xF6#8, matched := false }))

/-! ### The streaming commands (41_streaming.md R80 to R84) -/

/-- R80: `CRC.INIT`, its encoding and malformed words, its effect, idempotent, redundant after Reset. -/
def Obligations.CrcInitEffect : Prop :=
  decode 0x10000000#32 = .command .crcInit ∧
  (∀ w : Word, w.toNat / 0x1000000 = 0x10 → w ≠ 0x10000000#32 → decode w = .illegal .mustBeZero) ∧
  (∀ (s : State) (old : Half), exec .crcInit { s with crc := old } = .next { s with crc := 0xFFFF#16 }) ∧
  (∀ s : State, execAll [.crcInit, .crcInit] s = exec .crcInit s) ∧
  (∀ (cfg : Config) (k : Nat) (inputs : List HostInput),
    exec .crcInit (State.afterReset cfg k inputs) = .next (State.afterReset cfg k inputs))

/-- R81: `CRC.UPD b`, its encoding and malformed words, its effect, continuing an earlier computation, a zero byte, the example. -/
def Obligations.CrcUpdEffect : Prop :=
  (∀ b : Byte, decode (BitVec.ofNat 32 (0x11000000 + b.toNat * 0x10000)) = .command (.crcUpd b)) ∧
  (∀ w : Word, w.toNat / 0x1000000 = 0x11 → w.toNat % 0x10000 ≠ 0 → decode w = .illegal .mustBeZero) ∧
  (∀ (b : Byte) (s : State), exec (.crcUpd b) s = .next { s with crc := crc16Byte s.crc b }) ∧
  (∀ (b : Byte) (s : State) (bytes : List Byte) (n : Nat), n ≤ bytes.length → s.crc = crc16 bytes n →
    exec (.crcUpd b) s = .next { s with crc := crc16 (bytes.take n ++ [b]) (n + 1) }) ∧
  (∀ s : State, exec (.crcUpd 0x00#8) s = .next { s with crc := crc16Bit^[8] s.crc }) ∧
  (∀ s : State, s.crc = 0xFFFF#16 → exec (.crcUpd 0x00#8) s = .next { s with crc := 0x40BF#16 }) ∧
  (∀ s : State, s.crc = 0xFFFF#16 → exec (.crcUpd 0x01#8) s = .next { s with crc := 0x807E#16 } ∧
    execAll [.crcUpd 0x01#8, .crcUpd 0x03#8] s = .next { s with crc := 0x2140#16 })

/-- R82: `LRC.INIT`, its encoding and malformed words, its effect (`LRC` stays), idempotent, redundant after Reset. -/
def Obligations.LrcInitEffect : Prop :=
  decode 0x12000000#32 = .command .lrcInit ∧
  (∀ w : Word, w.toNat / 0x1000000 = 0x12 → w ≠ 0x12000000#32 → decode w = .illegal .mustBeZero) ∧
  (∀ (s : State) (old : Byte), exec .lrcInit { s with sum := old } = .next { s with sum := 0x00#8 }) ∧
  (∀ s : State, execAll [.lrcInit, .lrcInit] s = exec .lrcInit s) ∧
  (∀ (cfg : Config) (k : Nat) (inputs : List HostInput),
    exec .lrcInit (State.afterReset cfg k inputs) = .next (State.afterReset cfg k inputs))

/-- R83: `LRC.UPD b`, its encoding, its effect (the carry dropped, `LRC` stays), a zero byte, the examples. -/
def Obligations.LrcUpdEffect : Prop :=
  (∀ b : Byte, decode (BitVec.ofNat 32 (0x13000000 + b.toNat * 0x10000)) = .command (.lrcUpd b)) ∧
  (∀ (b : Byte) (s : State), exec (.lrcUpd b) s =
    .next { s with sum := BitVec.ofNat 8 ((s.sum.toNat + b.toNat) % 256) }) ∧
  (∀ s : State, exec (.lrcUpd 0x00#8) s = .next s) ∧
  (∀ s : State, s.sum = 0xFF#8 → exec (.lrcUpd 0x01#8) s = .next { s with sum := 0x00#8 } ∧
    exec (.lrcUpd 0x02#8) s = .next { s with sum := 0x01#8 }) ∧
  (∀ s : State, s.sum = 0x02#8 → exec (.lrcUpd 0x08#8) s = .next { s with sum := 0x0A#8 })

/-- R84: `LRC.FIN`, its encoding, its effect (`SUM` stays), idempotent, the corner cases and the example. -/
def Obligations.LrcFinEffect : Prop :=
  decode 0x14000000#32 = .command .lrcFin ∧
  (∀ (s : State) (old : Byte), exec .lrcFin { s with lrc := old } =
    .next { s with lrc := BitVec.ofNat 8 (((s.sum.toNat ^^^ 0xFF) + 1) &&& 0xFF) }) ∧
  (∀ s : State, execAll [.lrcFin, .lrcFin] s = exec .lrcFin s) ∧
  (∀ s : State, s.sum = 0x00#8 → exec .lrcFin s = .next { s with lrc := 0x00#8 }) ∧
  (∀ s : State, s.sum = 0x80#8 → exec .lrcFin s = .next { s with lrc := 0x80#8 }) ∧
  (∀ s : State, s.sum = 0x0A#8 → exec .lrcFin s = .next { s with lrc := 0xF6#8 })

/-! ### Buffer access and housekeeping (42_buffer_housekeeping.md R90 to R93) -/

/-- R90: `NOP`, its encoding and malformed words; it leaves the state as it was. -/
def Obligations.NopEffect : Prop :=
  decode 0x00000000#32 = .command .nop ∧
  (∀ w : Word, w.toNat / 0x1000000 = 0x00 → w ≠ 0x00000000#32 → decode w = .illegal .mustBeZero) ∧
  (∀ s : State, exec .nop s = .next s)

/-- R91: `STB addr, b`, its encoding, its fault, its effect on every byte of `buf` and on nothing else, the example. -/
def Obligations.StbEffect : Prop :=
  (∀ (b : Byte), ∀ addr < 65536,
    decode (BitVec.ofNat 32 (0x20000000 + b.toNat * 0x10000 + addr)) = .command (.stb addr b)) ∧
  (∀ (addr : Nat) (b : Byte) (s : State), s.bufBytes ≤ addr → exec (.stb addr b) s = .next (s.raiseFault .range)) ∧
  (∀ (addr : Nat) (b : Byte) (s : State), addr < s.bufBytes →
    ∃ t, exec (.stb addr b) s = .next t ∧ t = { s with buf := t.buf } ∧
      t.memRead1 addr = b ∧ ∀ a, a ≠ addr → t.memRead1 a = s.memRead1 a) ∧
  (decode 0x20FF0002#32 = .command (.stb 2 0xFF#8) ∧
    ∀ s : State, 2 < s.bufBytes → ∃ t, exec (.stb 2 0xFF#8) s = .next t ∧ t.memRead1 2 = 0xFF#8)

/-- R92: `LDB addr`, its encoding and malformed words, its fault, its effect, and its example after `CRC16.APP 6`. -/
def Obligations.LdbEffect : Prop :=
  (∀ addr < 65536, decode (BitVec.ofNat 32 (0x21000000 + addr)) = .command (.ldb addr)) ∧
  (∀ w : Word, w.toNat / 0x1000000 = 0x21 → w.toNat / 0x10000 % 0x100 ≠ 0 → decode w = .illegal .mustBeZero) ∧
  (∀ (addr : Nat) (s : State), s.bufBytes ≤ addr → exec (.ldb addr) s = .next (s.raiseFault .range)) ∧
  (∀ (addr : Nat) (s : State), addr < s.bufBytes → exec (.ldb addr) s = .next { s with dout := s.memRead1 addr }) ∧
  (∀ (addr : Nat) (s : State), addr < s.bufBytes → Memory.lookup s.buf addr = none →
    exec (.ldb addr) s = .next { s with dout := Config.resetByte s.resets addr }) ∧
  (∀ s : State, 8 ≤ s.bufBytes → s.covered 6 = [0x01#8, 0x03#8, 0x00#8, 0x00#8, 0x00#8, 0x02#8] →
    ∃ t u, execAll [.crc16App 6, .ldb 6] s = .next t ∧ t.dout = 0xC4#8 ∧ exec (.ldb 7) t = .next u ∧ u.dout = 0x0B#8)

/-- R93: `CLRE`, its encoding, malformed words set `ERR`, its effect, nothing to do when `ERR` is 0 (for states that meet the invariant),
the only command that clears `ERR`, the examples. -/
def Obligations.ClreEffect : Prop :=
  decode 0x30000000#32 = .command .clre ∧
  (∀ (w : Word) (s : State) (rest : List HostInput), w.toNat / 0x1000000 = 0x30 → w ≠ 0x30000000#32 →
    s.inputs = .command w :: rest → step s = .next ({ s with inputs := rest }.raiseFault .illegal)) ∧
  (∀ s : State, exec .clre s = .next { s with err := false, cause := .none }) ∧
  (∀ s : State, s.Inv → s.err = false → exec .clre s = .next s) ∧
  (∀ (i : Instr) (s t : State), exec i s = .next t → s.err = true → t.err = false → i = .clre) ∧
  (∀ s : State, s.status = 0x22#8 → ∃ t, exec .clre s = .next t ∧ t.status = 0x00#8) ∧
  (∀ s : State, s.status = 0x13#8 → ∃ t, exec .clre s = .next t ∧ t.status = 0x01#8)

/-! ### The checksum functions (40_range_checksum.md R55 to R64) -/

/-- R55: one bit step, over the numbers: halve, then XOR 0xA001 when the number was odd; bit 15 of the result is the bit shifted out. -/
def Obligations.CrcBitStep : Prop :=
  (∀ c : Half,
    (crc16Bit c).toNat = (if c.toNat % 2 = 1 then c.toNat / 2 ^^^ 0xA001 else c.toNat / 2) ∧
    (crc16Bit c).getLsbD 15 = c.getLsbD 0) ∧
  crc16Bit 0xFFFE#16 = 0x7FFF#16 ∧ crc16Bit 0x7FFF#16 = 0x9FFE#16 ∧
  crc16Bit 0x0001#16 = 0xA001#16 ∧ crc16Bit 0x0000#16 = 0x0000#16

/-- One byte step: XOR into bits 7:0, bits 15:8 unchanged, then eight bit steps.  The position is the spec's decision D15,
from general knowledge and not from its source (92_eei_decisions.md D15; log entry 8). -/
def Obligations.CrcByteStep : Prop :=
  (∀ (c : Half) (b : Byte), ∃ x : Half,
    lo8 x = lo8 c ^^^ b ∧ hi8 x = hi8 c ∧ crc16Byte c b = crc16Bit^[8] x) ∧
  crc16Byte 0xFFFF#16 0x01#8 = 0x807E#16

/-- R57: the CRC starts from 0xFFFF and takes the bytes in ascending order, one byte step each, with no final step; the example. -/
def Obligations.CrcFunction : Prop :=
  (∀ bytes : List Byte, crc16 bytes 0 = 0xFFFF#16) ∧
  (∀ (bytes : List Byte) (n : Nat) (b : Byte), bytes[n]? = some b → crc16 bytes (n + 1) = crc16Byte (crc16 bytes n) b) ∧
  crc16 [0x01#8, 0x03#8, 0x00#8, 0x00#8, 0x00#8, 0x02#8] 6 = 0x0BC4#16

/-- R58: the byte sum modulo 256, in any order; the sum of no bytes is 0. -/
def Obligations.ByteSum : Prop :=
  (∀ (bytes : List Byte) (n : Nat), (sum8 bytes n).toNat = ((bytes.take n).map BitVec.toNat).sum % 256) ∧
  (∀ (bytes other : List Byte) (n : Nat), other.Perm (bytes.take n) → sum8 other other.length = sum8 bytes n) ∧
  (∀ bytes : List Byte, sum8 bytes 0 = 0x00#8)

/-- R59, R60: the complement step over the numbers, masked to 8 bits, and the LRC of a range; the examples. -/
def Obligations.LrcFunction : Prop :=
  (∀ s : Byte, (lrcOfSum s).toNat = ((s.toNat ^^^ 0xFF) + 1) &&& 0xFF ∧ (lrcOfSum s).toNat = (256 - s.toNat) % 256) ∧
  lrcOfSum 0x00#8 = 0x00#8 ∧ lrcOfSum 0x01#8 = 0xFF#8 ∧ lrcOfSum 0x0A#8 = 0xF6#8 ∧ lrcOfSum 0x80#8 = 0x80#8 ∧
  lrcOfSum 0xFF#8 = 0x01#8 ∧
  (∀ (bytes : List Byte) (n : Nat), lrcOf bytes n = lrcOfSum (sum8 bytes n)) ∧
  (∀ bytes : List Byte, lrcOf bytes 0 = 0x00#8) ∧
  lrcOf [0x01#8, 0x01#8, 0x00#8, 0x00#8, 0x00#8, 0x08#8] 6 = 0xF6#8

/-- R61: the result depends only on `length` and on the bytes below it. -/
def Obligations.ChecksumsReadOnlyTheirRange : Prop :=
  ∀ (bytes other : List Byte) (n : Nat), (∀ i < n, bytes[i]? = other[i]?) →
    crc16 bytes n = crc16 other n ∧ lrcOf bytes n = lrcOf other n

/-- R62: the properties P1 to P4 the source requires: the two round trips, any single flipped bit of the covered range changes the CRC,
and the sum with its LRC is 0 modulo 256. -/
def Obligations.SourceProperties : Prop :=
  (∀ (bytes : List Byte) (n : Nat), n ≤ bytes.length →
    let c := crc16 bytes n
    let stored := bytes.take n ++ [lo8 c, hi8 c] ++ bytes.drop (n + 2)
    stored[n]? = some (lo8 (crc16 stored n)) ∧ stored[n + 1]? = some (hi8 (crc16 stored n))) ∧
  (∀ (bytes : List Byte) (n i k : Nat) (b : Byte), n ≤ bytes.length → i < n → k < 8 → bytes[i]? = some b →
    crc16 (bytes.set i (b ^^^ (0x01#8 <<< k))) n ≠ crc16 bytes n) ∧
  (∀ (bytes : List Byte) (n : Nat), n ≤ bytes.length →
    let stored := bytes.take n ++ [lrcOf bytes n] ++ bytes.drop (n + 1)
    stored[n]? = some (lrcOf stored n)) ∧
  (∀ (bytes : List Byte) (n : Nat), ((sum8 bytes n).toNat + (lrcOf bytes n).toNat) % 256 = 0)

/-- Law L1 of 40_range_checksum.md section 3: the bit step is a bijection, with the inverse given there. -/
def Obligations.CrcBitStepIsBijective : Prop :=
  Function.Bijective crc16Bit ∧
  ∀ r : Half,
    crc16Bit (if r.getLsbD 15 then ((r ^^^ 0xA001#16) <<< 1) ||| 0x0001#16 else r <<< 1) = r

/-- Law L2 of 40_range_checksum.md section 3: the bit step is linear; the difference of two CRCs is the CRC loop from 0 over the byte-wise
difference; a difference confined to one byte or to two adjacent bytes changes the CRC. -/
def Obligations.CrcIsLinear : Prop :=
  (∀ x y : Half, crc16Bit (x ^^^ y) = crc16Bit x ^^^ crc16Bit y) ∧
  (∀ m m' : List Byte, m.length = m'.length →
    crc16 m' m'.length ^^^ crc16 m m.length = crcFeed 0x0000#16 (List.zipWith (· ^^^ ·) m' m)) ∧
  (∀ (before after : List Byte) (x y x' y' : Byte), (x, y) ≠ (x', y') →
    crc16 (before ++ [x, y] ++ after) (before.length + 2 + after.length) ≠
      crc16 (before ++ [x', y'] ++ after) (before.length + 2 + after.length)) ∧
  (∀ (before after : List Byte) (x x' : Byte), x ≠ x' →
    crc16 (before ++ [x] ++ after) (before.length + 1 + after.length) ≠
      crc16 (before ++ [x'] ++ after) (before.length + 1 + after.length))

/-- Laws L4 and L5 of 40_range_checksum.md section 3: a message with its own CRC, low byte first, has residue 0, and no other two bytes give it. -/
def Obligations.CrcResidue : Prop :=
  (∀ m : List Byte,
    let c := crc16 m m.length
    crc16 (m ++ [lo8 c, hi8 c]) (m.length + 2) = 0x0000#16) ∧
  (∀ (m : List Byte) (s0 s1 : Byte),
    crc16 (m ++ [s0, s1]) (m.length + 2) = crc16Bit^[16] (crc16 m m.length ^^^ ofHiLo s1 s0) ∧
    (crc16 (m ++ [s0, s1]) (m.length + 2) = 0x0000#16 ↔ ofHiLo s1 s0 = crc16 m m.length))

/-- What laws L1, L2 and L5 of 40_range_checksum.md section 3 say of the steps: the inverse undoes the bit step on both sides; the bit step of 0
is 0; the byte step is the eightfold bit step of the XOR; every number of bit steps, `T8` and `T16` among them, is linear and bijective and
keeps 0; so one flipped bit of one byte is a difference that stays non-zero to the end and is the difference of the two CRCs. -/
def Obligations.CrcStepLaws : Prop :=
  (∀ c : Half, crc16BitInverse (crc16Bit c) = c ∧ crc16Bit (crc16BitInverse c) = c) ∧
  crc16Bit 0x0000#16 = 0x0000#16 ∧
  (∀ (c : Half) (b : Byte), crc16Byte c b = crc16Bit^[8] (c ^^^ b.setWidth 16)) ∧
  (∀ k : Nat,
    (∀ x y : Half, crc16Bit^[k] (x ^^^ y) = crc16Bit^[k] x ^^^ crc16Bit^[k] y) ∧
    Function.Bijective crc16Bit^[k] ∧ crc16Bit^[k] 0x0000#16 = 0x0000#16) ∧
  (∀ (m : List Byte) (i k : Nat) (b : Byte), k < 8 → m[i]? = some b →
    let flipped := m.set i (b ^^^ (0x01#8 <<< k))
    crcDifference flipped m ≠ 0x0000#16 ∧ crc16 flipped m.length = crc16 m m.length ^^^ crcDifference flipped m)

/-- Law L3 of 40_range_checksum.md section 3: the CRC of a joined message is the loop over its second part from the CRC of the first; so
streaming the second part into a `CRC` that holds the CRC of the first leaves the CRC of the whole, and nothing else changed. -/
def Obligations.CrcAppendLaw : Prop :=
  ∀ m t : List Byte,
    crc16 (m ++ t) (m.length + t.length) = crcFeed (crc16 m m.length) t ∧
    ∀ s : State, s.crc = crc16 m m.length →
      execAll (t.map .crcUpd) s = .next { s with crc := crc16 (m ++ t) (m.length + t.length) }

/-- Law L6 of 40_range_checksum.md section 3: particular values; leading zero bytes change the result. -/
def Obligations.CrcParticularValues : Prop :=
  crc16 [0xFF#8, 0xFF#8] 2 = 0x0000#16 ∧ crc16 [0x00#8] 1 = 0x40BF#16 ∧ crc16 [0x00#8, 0x00#8] 2 = 0xB001#16

/-- Laws M1 to M4 of 40_range_checksum.md section 3: the complement step is an involution with two fixed points; a byte completes a sum to 0
exactly when it is the LRC; sums append; a flipped bit moves the sum by its weight and so changes the LRC. -/
def Obligations.LrcLaws : Prop :=
  (∀ s : Byte, lrcOfSum (lrcOfSum s) = s ∧ (lrcOfSum s = s ↔ s = 0x00#8 ∨ s = 0x80#8)) ∧
  (∀ s t : Byte, s + t = 0x00#8 ↔ t = lrcOfSum s) ∧
  (∀ m t : List Byte, sum8 (m ++ t) (m.length + t.length) = sum8 m m.length + sum8 t t.length) ∧
  (∀ (bytes : List Byte) (n i k : Nat) (b : Byte), i < n → k < 8 → bytes[i]? = some b →
    let flipped := bytes.set i (b ^^^ (0x01#8 <<< k))
    (sum8 flipped n = sum8 bytes n + (0x01#8 <<< k) ∨ sum8 flipped n = sum8 bytes n - (0x01#8 <<< k)) ∧
    lrcOf flipped n ≠ lrcOf bytes n)

/-! ### Relations between the commands -/

/-- Round trip (40_range_checksum.md section 5): an append, then any commands that do not store into the frame, then the check of the
frame with its checksum, ends with `MATCH` 1, the CRC as the append left it. -/
def Obligations.AppendThenCheckMatches : Prop :=
  (∀ (n : Nat) (s : State) (between : List Instr), n + 2 ≤ s.bufBytes →
    (∀ i ∈ between, ∀ a < n + 2, a ∉ storesAt i) →
    ∃ t u v, exec (.crc16App n) s = .next t ∧ execAll between t = .next u ∧ exec (.crc16Chk (n + 2)) u = .next v ∧
      v.matched = true ∧ v.crc = t.crc) ∧
  (∀ (n : Nat) (s : State) (between : List Instr), n + 1 ≤ s.bufBytes →
    (∀ i ∈ between, ∀ a < n + 1, a ∉ storesAt i) →
    ∃ t u v, exec (.lrcApp n) s = .next t ∧ execAll between t = .next u ∧ exec (.lrcChk (n + 1)) u = .next v ∧
      v.matched = true ∧ v.lrc = t.lrc)

/-- Detection (40_range_checksum.md section 5): if between the append and the check an `STB` inverts one bit of the frame, covered byte or
checksum byte, the check ends with `MATCH` 0. -/
def Obligations.FlippedBitFailsTheCheck : Prop :=
  (∀ (n a k : Nat) (s : State), n + 2 ≤ s.bufBytes → a < n + 2 → k < 8 →
    ∃ t u v, exec (.crc16App n) s = .next t ∧ exec (.stb a (t.memRead1 a ^^^ (0x01#8 <<< k))) t = .next u ∧
      exec (.crc16Chk (n + 2)) u = .next v ∧ v.matched = false ∧ v.err = s.err) ∧
  (∀ (n a k : Nat) (s : State), n + 1 ≤ s.bufBytes → a < n + 1 → k < 8 →
    ∃ t u v, exec (.lrcApp n) s = .next t ∧ exec (.stb a (t.memRead1 a ^^^ (0x01#8 <<< k))) t = .next u ∧
      exec (.lrcChk (n + 1)) u = .next v ∧ v.matched = false ∧ v.err = s.err)

/-- A range command is the streamed computation over the same bytes, in its whole effect (40_range_checksum.md section 5). -/
def Obligations.RangeEqualsStream : Prop :=
  ∀ (len : Nat) (s : State), len ≤ s.bufBytes →
    execAll (.crcInit :: (s.covered len).map .crcUpd) s = exec (.crc16 len) s ∧
    execAll (.lrcInit :: ((s.covered len).map .lrcUpd ++ [.lrcFin])) s = exec (.lrc len) s

/-- A streamed candidate, checksum included, leaves `CRC` 0x0000 (`SUM` 0x00) exactly when the `.CHK` command on the same bytes
sets `MATCH` (41_streaming.md, streaming a candidate for validation). -/
def Obligations.StreamedResidueAgreesWithCheck : Prop :=
  (∀ (len : Nat) (s : State), 2 ≤ len → len ≤ s.bufBytes →
    ∃ t u, execAll (.crcInit :: (s.covered len).map .crcUpd) s = .next t ∧ exec (.crc16Chk len) s = .next u ∧
      t.matched = s.matched ∧ (t.crc = 0x0000#16 ↔ u.matched = true)) ∧
  (∀ (len : Nat) (s : State), 1 ≤ len → len ≤ s.bufBytes →
    ∃ t u, execAll (.lrcInit :: (s.covered len).map .lrcUpd) s = .next t ∧ exec (.lrcChk len) s = .next u ∧
      t.matched = s.matched ∧ (t.sum = 0x00#8 ↔ u.matched = true))

/-- The CRC side and the LRC side are independent: a streaming or plain range command of one commutes with one of the other,
so two streams can be interleaved freely (41_streaming.md, interaction with the range commands).  The `.APP` and `.CHK` commands are not
claimed: two `.APP` commands may write the same bytes, and the two `.CHK` commands both write `MATCH`. -/
def Obligations.CrcAndLrcSidesCommute : Prop :=
  ∀ (s : State) (b b' : Byte) (len len' : Nat), len ≤ s.bufBytes → len' ≤ s.bufBytes →
    ∀ i ∈ [Instr.crcInit, .crcUpd b, .crc16 len], ∀ j ∈ [Instr.lrcInit, .lrcUpd b', .lrcFin, .lrc len'],
      ∃ t, execAll [i, j] s = .next t ∧ execAll [j, i] s = .next t
end

