-- ==== Sys2Proof/Laws/Checksum.lean ====
section
/-! SUPPORT. The small lemmas of the checksum functions: the two bytes of a CRC over the numbers, loops over joined lists. -/

namespace Sys2Proof.Machine

theorem lo8_toNat (c : Half) : (lo8 c).toNat = c.toNat % 256 := by
  simp [lo8, BitVec.extractLsb'_toNat]

theorem hi8_toNat (c : Half) : (hi8 c).toNat = c.toNat / 256 := by
  have := c.isLt
  simp [hi8, BitVec.extractLsb'_toNat, Nat.shiftRight_eq_div_pow]
  omega

/-- R7: `{hi, lo} = hi * 256 + lo`. -/
theorem ofHiLo_toNat (hi lo : Byte) : (ofHiLo hi lo).toNat = hi.toNat * 256 + lo.toNat := by
  change (hi ++ lo).toNat = _
  rw [BitVec.toNat_append, ← Nat.shiftLeft_add_eq_or_of_lt lo.isLt, Nat.shiftLeft_eq]

@[simp] theorem lo8_ofHiLo (hi lo : Byte) : lo8 (ofHiLo hi lo) = lo := by
  have := lo.isLt
  apply BitVec.eq_of_toNat_eq
  rw [lo8_toNat, ofHiLo_toNat]
  omega

@[simp] theorem hi8_ofHiLo (hi lo : Byte) : hi8 (ofHiLo hi lo) = hi := by
  have := lo.isLt
  apply BitVec.eq_of_toNat_eq
  rw [hi8_toNat, ofHiLo_toNat]
  omega

@[simp] theorem ofHiLo_hi8_lo8 (c : Half) : ofHiLo (hi8 c) (lo8 c) = c := by
  apply BitVec.eq_of_toNat_eq
  rw [ofHiLo_toNat, hi8_toNat, lo8_toNat]
  omega

/-- The CRC loop over a joined list goes on where the first list ended. -/
theorem crcFeed_append (c : Half) (m t : List Byte) : crcFeed c (m ++ t) = crcFeed (crcFeed c m) t := by
  induction m generalizing c with
  | nil => rfl
  | cons b m ih => exact ih _

/-- The sum loop over a joined list goes on where the first list ended. -/
theorem sumFeed_append (s : Byte) (m t : List Byte) : sumFeed s (m ++ t) = sumFeed (sumFeed s m) t := by
  induction m generalizing s with
  | nil => rfl
  | cons b m ih => exact ih _

end Sys2Proof.Machine
end

