-- ==== Sys2Proof/Laws/Decode.lean ====
section
/-! SUPPORT. The fields of a word and the word of its fields, over the numbers. -/

namespace Sys2Proof

theorem opField_eq (w : Word) : opField w = w.toNat / 0x1000000 := by
  have := w.isLt
  simp [opField, BitVec.extractLsb'_toNat, Nat.shiftRight_eq_div_pow]
  omega

theorem imm8Field_toNat (w : Word) : (imm8Field w).toNat = w.toNat / 0x10000 % 0x100 := by
  simp [imm8Field, BitVec.extractLsb'_toNat, Nat.shiftRight_eq_div_pow]

theorem imm8Field_eq_zero (w : Word) : imm8Field w = 0 ↔ w.toNat / 0x10000 % 0x100 = 0 := by
  rw [← imm8Field_toNat, BitVec.toNat_eq]
  rfl

theorem n16Field_eq (w : Word) : n16Field w = w.toNat % 0x10000 := by
  simp [n16Field, BitVec.extractLsb'_toNat]

/-- R41: `w = op * 2^24 + imm8 * 2^16 + n16`. -/
theorem packWord_toNat {op n16 : Nat} (imm8 : Byte) (hop : op < 256) (hn : n16 < 65536) :
    (packWord op imm8 n16).toNat = op * 0x1000000 + imm8.toNat * 0x10000 + n16 := by
  have hb := imm8.isLt
  change ((BitVec.ofNat 8 op ++ imm8) ++ BitVec.ofNat 16 n16).toNat = _
  rw [BitVec.toNat_append, BitVec.toNat_append, BitVec.toNat_ofNat, BitVec.toNat_ofNat,
    Nat.mod_eq_of_lt hop, Nat.mod_eq_of_lt hn,
    ← Nat.shiftLeft_add_eq_or_of_lt hb, ← Nat.shiftLeft_add_eq_or_of_lt hn]
  simp only [Nat.shiftLeft_eq]
  omega

end Sys2Proof
end

