-- ==== Sys2Proof/Laws/State.lean ====
section
/-! SUPPORT. One lemma per field of State per update, and what each update leaves of a read of `buf`. -/

namespace Sys2Proof.Machine

variable (s : State)

@[simp] theorem State.memWrite1_crc (a : Nat) (b : Byte) : (s.memWrite1 a b).crc = s.crc := rfl
@[simp] theorem State.memWrite1_sum (a : Nat) (b : Byte) : (s.memWrite1 a b).sum = s.sum := rfl
@[simp] theorem State.memWrite1_lrc (a : Nat) (b : Byte) : (s.memWrite1 a b).lrc = s.lrc := rfl
@[simp] theorem State.memWrite1_dout (a : Nat) (b : Byte) : (s.memWrite1 a b).dout = s.dout := rfl
@[simp] theorem State.memWrite1_matched (a : Nat) (b : Byte) : (s.memWrite1 a b).matched = s.matched := rfl
@[simp] theorem State.memWrite1_err (a : Nat) (b : Byte) : (s.memWrite1 a b).err = s.err := rfl
@[simp] theorem State.memWrite1_cause (a : Nat) (b : Byte) : (s.memWrite1 a b).cause = s.cause := rfl
@[simp] theorem State.memWrite1_buf (a : Nat) (b : Byte) : (s.memWrite1 a b).buf = Memory.write s.buf a b := rfl
@[simp] theorem State.memWrite1_config (a : Nat) (b : Byte) : (s.memWrite1 a b).config = s.config := rfl
@[simp] theorem State.memWrite1_resets (a : Nat) (b : Byte) : (s.memWrite1 a b).resets = s.resets := rfl
@[simp] theorem State.memWrite1_inputs (a : Nat) (b : Byte) : (s.memWrite1 a b).inputs = s.inputs := rfl
@[simp] theorem State.memWrite1_bufBytes (a : Nat) (b : Byte) : (s.memWrite1 a b).bufBytes = s.bufBytes := rfl

@[simp] theorem State.memWrite2_crc (a : Nat) (v : Half) : (s.memWrite2 a v).crc = s.crc := rfl
@[simp] theorem State.memWrite2_sum (a : Nat) (v : Half) : (s.memWrite2 a v).sum = s.sum := rfl
@[simp] theorem State.memWrite2_lrc (a : Nat) (v : Half) : (s.memWrite2 a v).lrc = s.lrc := rfl
@[simp] theorem State.memWrite2_dout (a : Nat) (v : Half) : (s.memWrite2 a v).dout = s.dout := rfl
@[simp] theorem State.memWrite2_matched (a : Nat) (v : Half) : (s.memWrite2 a v).matched = s.matched := rfl
@[simp] theorem State.memWrite2_err (a : Nat) (v : Half) : (s.memWrite2 a v).err = s.err := rfl
@[simp] theorem State.memWrite2_cause (a : Nat) (v : Half) : (s.memWrite2 a v).cause = s.cause := rfl
@[simp] theorem State.memWrite2_buf (a : Nat) (v : Half) : (s.memWrite2 a v).buf = Memory.write (Memory.write s.buf a (lo8 v)) (a + 1) (hi8 v) := rfl
@[simp] theorem State.memWrite2_config (a : Nat) (v : Half) : (s.memWrite2 a v).config = s.config := rfl
@[simp] theorem State.memWrite2_resets (a : Nat) (v : Half) : (s.memWrite2 a v).resets = s.resets := rfl
@[simp] theorem State.memWrite2_inputs (a : Nat) (v : Half) : (s.memWrite2 a v).inputs = s.inputs := rfl
@[simp] theorem State.memWrite2_bufBytes (a : Nat) (v : Half) : (s.memWrite2 a v).bufBytes = s.bufBytes := rfl

@[simp] theorem State.setCrc_crc (v : Half) : (s.setCrc v).crc = v := rfl
@[simp] theorem State.setCrc_sum (v : Half) : (s.setCrc v).sum = s.sum := rfl
@[simp] theorem State.setCrc_lrc (v : Half) : (s.setCrc v).lrc = s.lrc := rfl
@[simp] theorem State.setCrc_dout (v : Half) : (s.setCrc v).dout = s.dout := rfl
@[simp] theorem State.setCrc_matched (v : Half) : (s.setCrc v).matched = s.matched := rfl
@[simp] theorem State.setCrc_err (v : Half) : (s.setCrc v).err = s.err := rfl
@[simp] theorem State.setCrc_cause (v : Half) : (s.setCrc v).cause = s.cause := rfl
@[simp] theorem State.setCrc_buf (v : Half) : (s.setCrc v).buf = s.buf := rfl
@[simp] theorem State.setCrc_config (v : Half) : (s.setCrc v).config = s.config := rfl
@[simp] theorem State.setCrc_resets (v : Half) : (s.setCrc v).resets = s.resets := rfl
@[simp] theorem State.setCrc_inputs (v : Half) : (s.setCrc v).inputs = s.inputs := rfl
@[simp] theorem State.setCrc_bufBytes (v : Half) : (s.setCrc v).bufBytes = s.bufBytes := rfl
@[simp] theorem State.setCrc_memRead1 (v : Half) (x : Nat) : (s.setCrc v).memRead1 x = s.memRead1 x := rfl
@[simp] theorem State.setCrc_covered (v : Half) (n : Nat) : (s.setCrc v).covered n = s.covered n := rfl

@[simp] theorem State.setSum_crc (v : Byte) : (s.setSum v).crc = s.crc := rfl
@[simp] theorem State.setSum_sum (v : Byte) : (s.setSum v).sum = v := rfl
@[simp] theorem State.setSum_lrc (v : Byte) : (s.setSum v).lrc = s.lrc := rfl
@[simp] theorem State.setSum_dout (v : Byte) : (s.setSum v).dout = s.dout := rfl
@[simp] theorem State.setSum_matched (v : Byte) : (s.setSum v).matched = s.matched := rfl
@[simp] theorem State.setSum_err (v : Byte) : (s.setSum v).err = s.err := rfl
@[simp] theorem State.setSum_cause (v : Byte) : (s.setSum v).cause = s.cause := rfl
@[simp] theorem State.setSum_buf (v : Byte) : (s.setSum v).buf = s.buf := rfl
@[simp] theorem State.setSum_config (v : Byte) : (s.setSum v).config = s.config := rfl
@[simp] theorem State.setSum_resets (v : Byte) : (s.setSum v).resets = s.resets := rfl
@[simp] theorem State.setSum_inputs (v : Byte) : (s.setSum v).inputs = s.inputs := rfl
@[simp] theorem State.setSum_bufBytes (v : Byte) : (s.setSum v).bufBytes = s.bufBytes := rfl
@[simp] theorem State.setSum_memRead1 (v : Byte) (x : Nat) : (s.setSum v).memRead1 x = s.memRead1 x := rfl
@[simp] theorem State.setSum_covered (v : Byte) (n : Nat) : (s.setSum v).covered n = s.covered n := rfl

@[simp] theorem State.setLrc_crc (v : Byte) : (s.setLrc v).crc = s.crc := rfl
@[simp] theorem State.setLrc_sum (v : Byte) : (s.setLrc v).sum = s.sum := rfl
@[simp] theorem State.setLrc_lrc (v : Byte) : (s.setLrc v).lrc = v := rfl
@[simp] theorem State.setLrc_dout (v : Byte) : (s.setLrc v).dout = s.dout := rfl
@[simp] theorem State.setLrc_matched (v : Byte) : (s.setLrc v).matched = s.matched := rfl
@[simp] theorem State.setLrc_err (v : Byte) : (s.setLrc v).err = s.err := rfl
@[simp] theorem State.setLrc_cause (v : Byte) : (s.setLrc v).cause = s.cause := rfl
@[simp] theorem State.setLrc_buf (v : Byte) : (s.setLrc v).buf = s.buf := rfl
@[simp] theorem State.setLrc_config (v : Byte) : (s.setLrc v).config = s.config := rfl
@[simp] theorem State.setLrc_resets (v : Byte) : (s.setLrc v).resets = s.resets := rfl
@[simp] theorem State.setLrc_inputs (v : Byte) : (s.setLrc v).inputs = s.inputs := rfl
@[simp] theorem State.setLrc_bufBytes (v : Byte) : (s.setLrc v).bufBytes = s.bufBytes := rfl
@[simp] theorem State.setLrc_memRead1 (v : Byte) (x : Nat) : (s.setLrc v).memRead1 x = s.memRead1 x := rfl
@[simp] theorem State.setLrc_covered (v : Byte) (n : Nat) : (s.setLrc v).covered n = s.covered n := rfl

@[simp] theorem State.setDout_crc (v : Byte) : (s.setDout v).crc = s.crc := rfl
@[simp] theorem State.setDout_sum (v : Byte) : (s.setDout v).sum = s.sum := rfl
@[simp] theorem State.setDout_lrc (v : Byte) : (s.setDout v).lrc = s.lrc := rfl
@[simp] theorem State.setDout_dout (v : Byte) : (s.setDout v).dout = v := rfl
@[simp] theorem State.setDout_matched (v : Byte) : (s.setDout v).matched = s.matched := rfl
@[simp] theorem State.setDout_err (v : Byte) : (s.setDout v).err = s.err := rfl
@[simp] theorem State.setDout_cause (v : Byte) : (s.setDout v).cause = s.cause := rfl
@[simp] theorem State.setDout_buf (v : Byte) : (s.setDout v).buf = s.buf := rfl
@[simp] theorem State.setDout_config (v : Byte) : (s.setDout v).config = s.config := rfl
@[simp] theorem State.setDout_resets (v : Byte) : (s.setDout v).resets = s.resets := rfl
@[simp] theorem State.setDout_inputs (v : Byte) : (s.setDout v).inputs = s.inputs := rfl
@[simp] theorem State.setDout_bufBytes (v : Byte) : (s.setDout v).bufBytes = s.bufBytes := rfl
@[simp] theorem State.setDout_memRead1 (v : Byte) (x : Nat) : (s.setDout v).memRead1 x = s.memRead1 x := rfl
@[simp] theorem State.setDout_covered (v : Byte) (n : Nat) : (s.setDout v).covered n = s.covered n := rfl

@[simp] theorem State.setMatched_crc (v : Bool) : (s.setMatched v).crc = s.crc := rfl
@[simp] theorem State.setMatched_sum (v : Bool) : (s.setMatched v).sum = s.sum := rfl
@[simp] theorem State.setMatched_lrc (v : Bool) : (s.setMatched v).lrc = s.lrc := rfl
@[simp] theorem State.setMatched_dout (v : Bool) : (s.setMatched v).dout = s.dout := rfl
@[simp] theorem State.setMatched_matched (v : Bool) : (s.setMatched v).matched = v := rfl
@[simp] theorem State.setMatched_err (v : Bool) : (s.setMatched v).err = s.err := rfl
@[simp] theorem State.setMatched_cause (v : Bool) : (s.setMatched v).cause = s.cause := rfl
@[simp] theorem State.setMatched_buf (v : Bool) : (s.setMatched v).buf = s.buf := rfl
@[simp] theorem State.setMatched_config (v : Bool) : (s.setMatched v).config = s.config := rfl
@[simp] theorem State.setMatched_resets (v : Bool) : (s.setMatched v).resets = s.resets := rfl
@[simp] theorem State.setMatched_inputs (v : Bool) : (s.setMatched v).inputs = s.inputs := rfl
@[simp] theorem State.setMatched_bufBytes (v : Bool) : (s.setMatched v).bufBytes = s.bufBytes := rfl
@[simp] theorem State.setMatched_memRead1 (v : Bool) (x : Nat) : (s.setMatched v).memRead1 x = s.memRead1 x := rfl
@[simp] theorem State.setMatched_covered (v : Bool) (n : Nat) : (s.setMatched v).covered n = s.covered n := rfl

@[simp] theorem State.setInputs_crc (v : List HostInput) : (s.setInputs v).crc = s.crc := rfl
@[simp] theorem State.setInputs_sum (v : List HostInput) : (s.setInputs v).sum = s.sum := rfl
@[simp] theorem State.setInputs_lrc (v : List HostInput) : (s.setInputs v).lrc = s.lrc := rfl
@[simp] theorem State.setInputs_dout (v : List HostInput) : (s.setInputs v).dout = s.dout := rfl
@[simp] theorem State.setInputs_matched (v : List HostInput) : (s.setInputs v).matched = s.matched := rfl
@[simp] theorem State.setInputs_err (v : List HostInput) : (s.setInputs v).err = s.err := rfl
@[simp] theorem State.setInputs_cause (v : List HostInput) : (s.setInputs v).cause = s.cause := rfl
@[simp] theorem State.setInputs_buf (v : List HostInput) : (s.setInputs v).buf = s.buf := rfl
@[simp] theorem State.setInputs_config (v : List HostInput) : (s.setInputs v).config = s.config := rfl
@[simp] theorem State.setInputs_resets (v : List HostInput) : (s.setInputs v).resets = s.resets := rfl
@[simp] theorem State.setInputs_inputs (v : List HostInput) : (s.setInputs v).inputs = v := rfl
@[simp] theorem State.setInputs_bufBytes (v : List HostInput) : (s.setInputs v).bufBytes = s.bufBytes := rfl
@[simp] theorem State.setInputs_memRead1 (v : List HostInput) (x : Nat) : (s.setInputs v).memRead1 x = s.memRead1 x := rfl
@[simp] theorem State.setInputs_covered (v : List HostInput) (n : Nat) : (s.setInputs v).covered n = s.covered n := rfl

@[simp] theorem State.setLrcResult_crc (v : Byte) : (s.setLrcResult v).crc = s.crc := rfl
@[simp] theorem State.setLrcResult_sum (v : Byte) : (s.setLrcResult v).sum = v := rfl
@[simp] theorem State.setLrcResult_lrc (v : Byte) : (s.setLrcResult v).lrc = lrcOfSum v := rfl
@[simp] theorem State.setLrcResult_dout (v : Byte) : (s.setLrcResult v).dout = s.dout := rfl
@[simp] theorem State.setLrcResult_matched (v : Byte) : (s.setLrcResult v).matched = s.matched := rfl
@[simp] theorem State.setLrcResult_err (v : Byte) : (s.setLrcResult v).err = s.err := rfl
@[simp] theorem State.setLrcResult_cause (v : Byte) : (s.setLrcResult v).cause = s.cause := rfl
@[simp] theorem State.setLrcResult_buf (v : Byte) : (s.setLrcResult v).buf = s.buf := rfl
@[simp] theorem State.setLrcResult_config (v : Byte) : (s.setLrcResult v).config = s.config := rfl
@[simp] theorem State.setLrcResult_resets (v : Byte) : (s.setLrcResult v).resets = s.resets := rfl
@[simp] theorem State.setLrcResult_inputs (v : Byte) : (s.setLrcResult v).inputs = s.inputs := rfl
@[simp] theorem State.setLrcResult_bufBytes (v : Byte) : (s.setLrcResult v).bufBytes = s.bufBytes := rfl
@[simp] theorem State.setLrcResult_memRead1 (v : Byte) (x : Nat) : (s.setLrcResult v).memRead1 x = s.memRead1 x := rfl
@[simp] theorem State.setLrcResult_covered (v : Byte) (n : Nat) : (s.setLrcResult v).covered n = s.covered n := rfl

@[simp] theorem State.raiseFault_crc (c : Cause) : (s.raiseFault c).crc = s.crc := rfl
@[simp] theorem State.raiseFault_sum (c : Cause) : (s.raiseFault c).sum = s.sum := rfl
@[simp] theorem State.raiseFault_lrc (c : Cause) : (s.raiseFault c).lrc = s.lrc := rfl
@[simp] theorem State.raiseFault_dout (c : Cause) : (s.raiseFault c).dout = s.dout := rfl
@[simp] theorem State.raiseFault_matched (c : Cause) : (s.raiseFault c).matched = s.matched := rfl
@[simp] theorem State.raiseFault_err (c : Cause) : (s.raiseFault c).err = true := rfl
@[simp] theorem State.raiseFault_cause (c : Cause) : (s.raiseFault c).cause = if s.err then s.cause else c := rfl
@[simp] theorem State.raiseFault_buf (c : Cause) : (s.raiseFault c).buf = s.buf := rfl
@[simp] theorem State.raiseFault_config (c : Cause) : (s.raiseFault c).config = s.config := rfl
@[simp] theorem State.raiseFault_resets (c : Cause) : (s.raiseFault c).resets = s.resets := rfl
@[simp] theorem State.raiseFault_inputs (c : Cause) : (s.raiseFault c).inputs = s.inputs := rfl
@[simp] theorem State.raiseFault_bufBytes (c : Cause) : (s.raiseFault c).bufBytes = s.bufBytes := rfl
@[simp] theorem State.raiseFault_memRead1 (c : Cause) (x : Nat) : (s.raiseFault c).memRead1 x = s.memRead1 x := rfl
@[simp] theorem State.raiseFault_covered (c : Cause) (n : Nat) : (s.raiseFault c).covered n = s.covered n := rfl

@[simp] theorem State.clearFault_crc : (s.clearFault).crc = s.crc := rfl
@[simp] theorem State.clearFault_sum : (s.clearFault).sum = s.sum := rfl
@[simp] theorem State.clearFault_lrc : (s.clearFault).lrc = s.lrc := rfl
@[simp] theorem State.clearFault_dout : (s.clearFault).dout = s.dout := rfl
@[simp] theorem State.clearFault_matched : (s.clearFault).matched = s.matched := rfl
@[simp] theorem State.clearFault_err : (s.clearFault).err = false := rfl
@[simp] theorem State.clearFault_cause : (s.clearFault).cause = .none := rfl
@[simp] theorem State.clearFault_buf : (s.clearFault).buf = s.buf := rfl
@[simp] theorem State.clearFault_config : (s.clearFault).config = s.config := rfl
@[simp] theorem State.clearFault_resets : (s.clearFault).resets = s.resets := rfl
@[simp] theorem State.clearFault_inputs : (s.clearFault).inputs = s.inputs := rfl
@[simp] theorem State.clearFault_bufBytes : (s.clearFault).bufBytes = s.bufBytes := rfl
@[simp] theorem State.clearFault_memRead1 (x : Nat) : (s.clearFault).memRead1 x = s.memRead1 x := rfl
@[simp] theorem State.clearFault_covered (n : Nat) : (s.clearFault).covered n = s.covered n := rfl

@[simp] theorem State.takeReset_crc : (s.takeReset).crc = 0xFFFF#16 := rfl
@[simp] theorem State.takeReset_sum : (s.takeReset).sum = 0x00#8 := rfl
@[simp] theorem State.takeReset_lrc : (s.takeReset).lrc = 0x00#8 := rfl
@[simp] theorem State.takeReset_dout : (s.takeReset).dout = 0x00#8 := rfl
@[simp] theorem State.takeReset_matched : (s.takeReset).matched = false := rfl
@[simp] theorem State.takeReset_err : (s.takeReset).err = false := rfl
@[simp] theorem State.takeReset_cause : (s.takeReset).cause = .none := rfl
@[simp] theorem State.takeReset_buf : (s.takeReset).buf = [] := rfl
@[simp] theorem State.takeReset_config : (s.takeReset).config = s.config := rfl
@[simp] theorem State.takeReset_resets : (s.takeReset).resets = s.resets + 1 := rfl
@[simp] theorem State.takeReset_inputs : (s.takeReset).inputs = s.inputs := rfl
@[simp] theorem State.takeReset_bufBytes : (s.takeReset).bufBytes = s.bufBytes := rfl

end Sys2Proof.Machine
end

