-- ==== Sys2Proof/Laws/Memory.lean ====
section
/-! SUPPORT. Memory: reads after writes, the canonical form and the bounds are kept by every memory operation. -/

namespace Sys2Proof.Machine

/-- A read after a write: the written byte at its address, every other address as before. -/
theorem Memory.lookup_write (m : Memory) (a x : Nat) (b : Byte) :
    Memory.lookup (Memory.write m a b) x = if x = a then some b else Memory.lookup m x := by
  induction m with
  | nil => simp [Memory.write, Memory.lookup, eq_comm]
  | cons c rest ih =>
    obtain ⟨k, v⟩ := c
    simp only [Memory.write]
    split
    · simp [Memory.lookup, eq_comm]
    · split
      · subst_vars
        by_cases h : k = x
        · simp [Memory.lookup, h]
        · simp [Memory.lookup, h, Ne.symm h]
      · by_cases h : k = x
        · subst h
          simp [Memory.lookup, eq_comm, *]
        · simp [Memory.lookup, h, ih]

/-- The listed addresses after a write: the written one and those that were listed. -/
theorem Memory.mem_write {m : Memory} {a : Nat} {b : Byte} {c : Host.Cell}
    (h : c ∈ Memory.write m a b) : c = (a, b) ∨ c ∈ m := by
  induction m with
  | nil => simpa [Memory.write] using h
  | cons d rest ih =>
    obtain ⟨k, v⟩ := d
    simp only [Memory.write] at h
    split at h
    · simpa using h
    · split at h <;> simp only [List.mem_cons] at h ⊢
      · tauto
      · rcases h with h | h
        · exact .inr (.inl h)
        · rcases ih h with h | h <;> tauto

theorem Memory.wf_cons (c : Host.Cell) (m : Memory) :
    Memory.wf (c :: m) = true ↔ (∀ d ∈ m, c.1 < d.1) ∧ Memory.wf m = true := by
  simp [Memory.wf]

/-- A write keeps the canonical form. -/
theorem Memory.wf_write {m : Memory} (h : Memory.wf m = true) (a : Nat) (b : Byte) :
    Memory.wf (Memory.write m a b) = true := by
  induction m with
  | nil => rfl
  | cons d rest ih =>
    obtain ⟨k, v⟩ := d
    obtain ⟨hlt, hrest⟩ := (Memory.wf_cons _ _).1 h
    simp only [Memory.write]
    split
    · rename_i hak
      refine (Memory.wf_cons _ _).2 ⟨fun e he => ?_, h⟩
      rcases List.mem_cons.1 he with rfl | he
      · exact hak
      · exact hak.trans (hlt e he)
    · split
      · subst_vars
        exact (Memory.wf_cons _ _).2 ⟨hlt, hrest⟩
      · refine (Memory.wf_cons _ _).2 ⟨fun e he => ?_, ih hrest⟩
        rcases Memory.mem_write he with rfl | he
        · simp only; omega
        · exact hlt e he

/-- A write inside `buf` keeps every listed address inside `buf`. -/
theorem Memory.inside_write {n : Nat} {m : Memory} (h : Memory.inside n m = true) {a : Nat} (ha : a < n) (b : Byte) :
    Memory.inside n (Memory.write m a b) = true := by
  simp only [Memory.inside, List.all_eq_true, decide_eq_true_eq] at h ⊢
  intro c hc
  rcases Memory.mem_write hc with rfl | hc
  · exact ha
  · exact h c hc

/-- The memory of every state just after Reset is canonical. -/
theorem State.afterReset_wf (cfg : Config) (k : Nat) (inputs : List HostInput) :
    Memory.wf (State.afterReset cfg k inputs).buf = true := rfl

/-- `MemRead` after `MemWrite` of one byte. -/
theorem State.memWrite1_memRead1 (s : State) (a x : Nat) (b : Byte) :
    (s.memWrite1 a b).memRead1 x = if x = a then b else s.memRead1 x := by
  simp only [State.memRead1, State.memWrite1_buf, State.memWrite1_resets, Memory.lookup_write]
  split <;> rfl

/-- `MemRead` after `MemWrite` of a CRC: low byte, then high byte. -/
theorem State.memWrite2_memRead1 (s : State) (a x : Nat) (v : Half) :
    (s.memWrite2 a v).memRead1 x = if x = a + 1 then hi8 v else if x = a then lo8 v else s.memRead1 x := by
  simp only [State.memWrite2, State.memWrite1_memRead1]

end Sys2Proof.Machine
end

