-- ==== Sys2Proof/Laws/Ops.lean ====
section
/-! SUPPORT. What each shared operation can do, said once. -/

namespace Sys2Proof.Machine

/-- All that follows a command's checks: it always answers a next state, the fault's or the effect's. -/
theorem State.unlessFault_eq (s : State) (check : Option Cause) (effect : State) :
    s.unlessFault check effect = .next (check.elim effect s.raiseFault) := by
  cases check <;> rfl

theorem State.rangeCheck_eq_none {s : State} {n : Nat} : s.rangeCheck n = none ↔ n ≤ s.bufBytes := by
  simp [State.rangeCheck]

theorem State.rangeCheck_eq_some {s : State} {n : Nat} {c : Cause} :
    s.rangeCheck n = some c ↔ s.bufBytes < n ∧ c = .range := by
  simp [State.rangeCheck, eq_comm]

theorem State.addrCheck_eq_none {s : State} {a : Nat} : s.addrCheck a = none ↔ a < s.bufBytes := by
  simp [State.addrCheck]

theorem State.addrCheck_eq_some {s : State} {a : Nat} {c : Cause} :
    s.addrCheck a = some c ↔ s.bufBytes ≤ a ∧ c = .range := by
  simp [State.addrCheck, eq_comm]

theorem State.candidateCheck_eq_none {s : State} {k len : Nat} :
    s.candidateCheck k len = none ↔ k ≤ len ∧ len ≤ s.bufBytes := by
  simp only [State.candidateCheck]
  split <;> simp [State.rangeCheck_eq_none] <;> omega

@[simp] theorem State.covered_length (s : State) (n : Nat) : (s.covered n).length = n := by
  simp [State.covered]

/-- The covered range grows at its end. -/
theorem State.covered_succ (s : State) (n : Nat) : s.covered (n + 1) = s.covered n ++ [s.memRead1 n] := by
  simp [State.covered, List.range_succ]

/-- The covered range depends on its own bytes only. -/
theorem State.covered_congr {s t : State} {n : Nat} (h : ∀ a < n, t.memRead1 a = s.memRead1 a) :
    t.covered n = s.covered n := by
  simpa [State.covered] using h

/-- The first bytes of a covered range. -/
theorem State.covered_take (s : State) {k n : Nat} (h : k ≤ n) : (s.covered n).take k = s.covered k := by
  simp [State.covered, ← List.map_take, List.take_range, Nat.min_eq_left h]

end Sys2Proof.Machine
end

