-- ==== Sys2Proof/Laws/Exec.lean ====
section
/-! SUPPORT. What executing a command can do, said once: the fault procedure where its fault condition holds, else its effect. -/

namespace Sys2Proof.Machine

/-- The effect of a command that does not fault. -/
def effectOf (i : Instr) (s : State) : State :=
  match i with
  | .nop => s
  | .crc16 len => s.setCrc (crc16 (s.covered len) len)
  | .lrc len => s.setLrcResult (sum8 (s.covered len) len)
  | .crc16App len => (s.setCrc (crc16 (s.covered len) len)).memWrite2 len (crc16 (s.covered len) len)
  | .lrcApp len => (s.setLrcResult (sum8 (s.covered len) len)).memWrite1 len (lrcOfSum (sum8 (s.covered len) len))
  | .crc16Chk len =>
    (s.setCrc (crc16 (s.covered (len - 2)) (len - 2))).setMatched
      (crcMatches (crc16 (s.covered (len - 2)) (len - 2)) (s.memRead2 (len - 2)))
  | .lrcChk len =>
    (s.setLrcResult (sum8 (s.covered (len - 1)) (len - 1))).setMatched
      (lrcMatches (lrcOfSum (sum8 (s.covered (len - 1)) (len - 1))) (s.memRead1 (len - 1)))
  | .crcInit => s.setCrc crcInitial
  | .crcUpd b => s.setCrc (crc16Byte s.crc b)
  | .lrcInit => s.setSum 0x00#8
  | .lrcUpd b => s.setSum (s.sum + b)
  | .lrcFin => s.setLrc (lrcOfSum s.sum)
  | .stb addr b => s.memWrite1 addr b
  | .ldb addr => s.setDout (s.memRead1 addr)
  | .clre => s.clearFault

/-- Every command answers a next state: the fault's or the effect's. -/
theorem exec_eq (i : Instr) (s : State) :
    exec i s = .next ((commandFault i s).elim (effectOf i s) s.raiseFault) := by
  cases i <;> simp only [exec, execNop, execCrc16, execLrc, execCrc16App, execLrcApp, execCrc16Chk, execLrcChk,
    execCrcInit, execCrcUpd, execLrcInit, execLrcUpd, execLrcFin, execStb, execLdb, execClre, State.unlessFault_eq,
    commandFault, State.candidateCheck, State.rangeCheck, State.addrCheck, gt_iff_lt, ge_iff_le] <;> rfl

/-- No fault condition has the cause `NONE`. -/
theorem commandFault_ne_none (i : Instr) (s : State) : commandFault i s ≠ some .none := by
  cases i <;> simp only [commandFault] <;> (repeat' split) <;> simp

/-- A run goes on from the state a step answers. -/
theorem run_of_step (M : Host.Core) {k : Nat} {s t : M.State} (h : M.step s = .next t) :
    M.run (k + 1) s = M.run k t := by
  simp [Host.Core.run, h]

end Sys2Proof.Machine
end

