-- ==== Sys2Proof/Laws/PerInstr.lean ====
section
/-! SUPPORT. Laws for every instruction as text: its word lies in its own row of spec/opcode_table.json. -/

namespace Sys2Proof

/-- Masking away `n16` leaves the word with `n16 = 0`. -/
theorem packWord_mask_n16 (op n : Nat) : packWord op 0 n &&& 0xFFFF0000#32 = packWord op 0 0 := by
  apply BitVec.eq_of_getLsbD_eq
  intro i hi
  simp only [packWord, BitVec.getLsbD_and, BitVec.getLsbD_append]
  interval_cases i <;> simp

/-- Masking away `imm8` leaves the word with `imm8 = 0`. -/
theorem packWord_mask_imm8 (op : Nat) (b : Byte) : packWord op b 0 &&& 0xFF00FFFF#32 = packWord op 0 0 := by
  apply BitVec.eq_of_getLsbD_eq
  intro i hi
  simp only [packWord, BitVec.getLsbD_and, BitVec.getLsbD_append]
  interval_cases i <;> simp

/-- Masking away both operand fields leaves the opcode. -/
theorem packWord_mask_both (op n : Nat) (b : Byte) : packWord op b n &&& 0xFF000000#32 = packWord op 0 0 := by
  apply BitVec.eq_of_getLsbD_eq
  intro i hi
  simp only [packWord, BitVec.getLsbD_and, BitVec.getLsbD_append]
  interval_cases i <;> simp

end Sys2Proof

namespace Sys2Proof.Laws.TableRow

/-- The "mask" of a command's row of spec/opcode_table.json. -/
def mask : Instr → Word
  | .nop => 0xFFFFFFFF#32
  | .crc16 _ => 0xFFFF0000#32
  | .lrc _ => 0xFFFF0000#32
  | .crc16App _ => 0xFFFF0000#32
  | .lrcApp _ => 0xFFFF0000#32
  | .crc16Chk _ => 0xFFFF0000#32
  | .lrcChk _ => 0xFFFF0000#32
  | .crcInit => 0xFFFFFFFF#32
  | .crcUpd _ => 0xFF00FFFF#32
  | .lrcInit => 0xFFFFFFFF#32
  | .lrcUpd _ => 0xFF00FFFF#32
  | .lrcFin => 0xFFFFFFFF#32
  | .stb _ _ => 0xFF000000#32
  | .ldb _ => 0xFFFF0000#32
  | .clre => 0xFFFFFFFF#32

/-- The "match" of a command's row of spec/opcode_table.json. -/
def row : Instr → Word
  | .nop => 0x00000000#32
  | .crc16 _ => 0x01000000#32
  | .lrc _ => 0x02000000#32
  | .crc16App _ => 0x03000000#32
  | .lrcApp _ => 0x04000000#32
  | .crc16Chk _ => 0x05000000#32
  | .lrcChk _ => 0x06000000#32
  | .crcInit => 0x10000000#32
  | .crcUpd _ => 0x11000000#32
  | .lrcInit => 0x12000000#32
  | .lrcUpd _ => 0x13000000#32
  | .lrcFin => 0x14000000#32
  | .stb _ _ => 0x20000000#32
  | .ldb _ => 0x21000000#32
  | .clre => 0x30000000#32

/-- The fixed bits of a command's word are those of its row. -/
def Statement (i : Instr) : Prop := encode i &&& mask i = row i

theorem nop : Statement .nop := by unfold Statement; decide
theorem crc16 (len : Nat) : Statement (.crc16 len) :=
  (packWord_mask_n16 0x1 len).trans rfl
theorem lrc (len : Nat) : Statement (.lrc len) :=
  (packWord_mask_n16 0x2 len).trans rfl
theorem crc16App (len : Nat) : Statement (.crc16App len) :=
  (packWord_mask_n16 0x3 len).trans rfl
theorem lrcApp (len : Nat) : Statement (.lrcApp len) :=
  (packWord_mask_n16 0x4 len).trans rfl
theorem crc16Chk (len : Nat) : Statement (.crc16Chk len) :=
  (packWord_mask_n16 0x5 len).trans rfl
theorem lrcChk (len : Nat) : Statement (.lrcChk len) :=
  (packWord_mask_n16 0x6 len).trans rfl
theorem crcInit : Statement .crcInit := by unfold Statement; decide
theorem crcUpd (b : Byte) : Statement (.crcUpd b) :=
  (packWord_mask_imm8 0x11 b).trans rfl
theorem lrcInit : Statement .lrcInit := by unfold Statement; decide
theorem lrcUpd (b : Byte) : Statement (.lrcUpd b) :=
  (packWord_mask_imm8 0x13 b).trans rfl
theorem lrcFin : Statement .lrcFin := by unfold Statement; decide
theorem stb (addr : Nat) (b : Byte) : Statement (.stb addr b) :=
  (packWord_mask_both 0x20 addr b).trans rfl
theorem ldb (addr : Nat) : Statement (.ldb addr) :=
  (packWord_mask_n16 0x21 addr).trans rfl
theorem clre : Statement .clre := by unfold Statement; decide

end Sys2Proof.Laws.TableRow
end

