-- ==== Sys2Proof/Tests/Slice0.lean ====
section
/-! SUPPORT. Tests: words written out from 30_encoding.md, single steps from 95_test_vectors.md (BUF_BYTES = 16 as there),
the WellFormed smoke test, and for each statement with hypotheses a state and operands that meet them. -/

namespace Sys2Proof.Tests

open Sys2Proof.Machine

/-- The state after Reset with BUF_BYTES = 16 and `bytes` written to `buf` from address 0. -/
def filled (bytes : List Byte) : State :=
  { State.afterReset ⟨16⟩ 0 [] with buf := (List.range bytes.length).zip bytes }

/-- `01 03 00 00 00 02`, the request of example E1, with more bytes after it. -/
def e1 (more : List Byte) : State := filled ([0x01#8, 0x03#8, 0x00#8, 0x00#8, 0x00#8, 0x02#8] ++ more)

/-- `01 01 00 00 00 08`, the request of example E3, with more bytes after it. -/
def e3 (more : List Byte) : State := filled ([0x01#8, 0x01#8, 0x00#8, 0x00#8, 0x00#8, 0x08#8] ++ more)

/-- The next state, if the outcome is one. -/
def nextOf : Host.Outcome State Fault Refusal → Option State
  | .next t => some t
  | .fault _ => none
  | .refused _ => none

/-- One field or view of the next state. -/
def seen {α : Type} (view : State → α) (o : Host.Outcome State Fault Refusal) : Option α := (nextOf o).map view

/-- One step with this word presented. -/
def present (w : Nat) (s : State) : Host.Outcome State Fault Refusal := step (s.withFetchWord 32 w)

/-! ### WellFormed: an ill-formed term for each check -/

theorem test_wf_crc16 : (Instr.crc16 65536).wf = false := by decide
theorem test_wf_lrc : (Instr.lrc 65536).wf = false := by decide
theorem test_wf_crc16App : (Instr.crc16App 65536).wf = false := by decide
theorem test_wf_lrcApp : (Instr.lrcApp 65536).wf = false := by decide
theorem test_wf_crc16Chk : (Instr.crc16Chk 65536).wf = false := by decide
theorem test_wf_lrcChk : (Instr.lrcChk 65536).wf = false := by decide
theorem test_wf_stb : (Instr.stb 65536 0x00#8).wf = false := by decide
theorem test_wf_ldb : (Instr.ldb 65536).wf = false := by decide

/-! ### Decoding: every constructor's word, written out from 30_encoding.md R44 -/

theorem test_decode_range :
    decode 0b00000001_00000000_0000000000000110#32 = .command (.crc16 6) ∧
    decode 0b00000010_00000000_0000000000000110#32 = .command (.lrc 6) ∧
    decode 0b00000011_00000000_0000000000000110#32 = .command (.crc16App 6) ∧
    decode 0b00000100_00000000_0000000000000110#32 = .command (.lrcApp 6) ∧
    decode 0b00000101_00000000_0000000000001000#32 = .command (.crc16Chk 8) ∧
    decode 0b00000110_00000000_1000000000000111#32 = .command (.lrcChk 0x8007) := by decide

theorem test_decode_stream :
    decode 0b00010000_00000000_0000000000000000#32 = .command .crcInit ∧
    decode 0b00010001_10000001_0000000000000000#32 = .command (.crcUpd 0x81#8) ∧
    decode 0b00010010_00000000_0000000000000000#32 = .command .lrcInit ∧
    decode 0b00010011_00001010_0000000000000000#32 = .command (.lrcUpd 0x0A#8) ∧
    decode 0b00010100_00000000_0000000000000000#32 = .command .lrcFin := by decide

theorem test_decode_buffer :
    decode 0b00000000_00000000_0000000000000000#32 = .command .nop ∧
    decode 0b00100000_11111111_0000000000000010#32 = .command (.stb 2 0xFF#8) ∧
    decode 0b00100001_00000000_0000000000000111#32 = .command (.ldb 7) ∧
    decode 0b00110000_00000000_0000000000000000#32 = .command .clre := by decide

/-- R46's four examples, and V-B-9 and V-B-23. -/
theorem test_decode_mustBeZero :
    decode 0x01010006#32 = .illegal .mustBeZero ∧ decode 0x10000001#32 = .illegal .mustBeZero ∧
    decode 0x11AB0001#32 = .illegal .mustBeZero ∧ decode 0x21FF0000#32 = .illegal .mustBeZero ∧
    decode 0x00000001#32 = .illegal .mustBeZero ∧ decode 0x30000100#32 = .illegal .mustBeZero := by decide

/-- The ends of R45's four ranges. -/
theorem test_decode_reservedOp :
    ∀ op ∈ [0x07, 0x0F, 0x15, 0x1F, 0x22, 0x2F, 0x31, 0xFF],
      decode (BitVec.ofNat 32 (op * 0x1000000)) = .illegal .reservedOp := by decide

/-- The words of 30_encoding.md section 6. -/
theorem test_encode :
    encode .crcInit = 0x10000000#32 ∧ encode (.crc16App 6) = 0x03000006#32 ∧ encode (.lrcUpd 0x0A#8) = 0x130A0000#32 ∧
    encode (.stb 2 0xFF#8) = 0x20FF0002#32 ∧ encode (.ldb 7) = 0x21000007#32 := by decide

theorem test_decodeTableWord : decodeTableWord 32 0x130A0000 = some (.lrcUpd 0x0A#8) ∧ decodeTableWord 32 0x07000000 = none := by decide

/-! ### The checksum functions, 95_test_vectors.md section 2 -/

/-- V-CRC-TRACE. -/
theorem test_crc_trace :
    (List.range 9).map (fun k => crc16Bits k 0xFFFE#16) =
      [0xFFFE#16, 0x7FFF#16, 0x9FFE#16, 0x4FFF#16, 0x87FE#16, 0x43FF#16, 0x81FE#16, 0x40FF#16, 0x807E#16] := by decide

/-- V-CRC-17, the check value of "123456789". -/
theorem test_crc_check_value :
    crc16 [0x31#8, 0x32#8, 0x33#8, 0x34#8, 0x35#8, 0x36#8, 0x37#8, 0x38#8, 0x39#8] 9 = 0x4B37#16 := by decide +kernel

/-- V-LRC-15. -/
theorem test_lrc_check_value :
    lrcOf [0x31#8, 0x32#8, 0x33#8, 0x34#8, 0x35#8, 0x36#8, 0x37#8, 0x38#8, 0x39#8] 9 = 0x23#8 := by decide +kernel

/-! ### One step each, 95_test_vectors.md sections 3 to 5 -/

/-- V-R-1. -/
theorem test_crc16 : seen State.crc (exec (.crc16 6) (e1 [])) = some 0x0BC4#16 := by decide +kernel
/-- V-B-17: fault RANGE at BUF_BYTES + 1. -/
theorem test_crc16_range : seen (fun t => (t.status, t.crc)) (exec (.crc16 17) (e1 [])) = some (0x22#8, 0xFFFF#16) := by decide +kernel
/-- V-R-3. -/
theorem test_lrc : seen (fun t => (t.sum, t.lrc)) (exec (.lrc 6) (e3 [])) = some (0x0A#8, 0xF6#8) := by decide +kernel
/-- V-R-4. -/
theorem test_lrc_empty : seen (fun t => (t.sum, t.lrc)) (exec (.lrc 0) { e3 [] with sum := 0x55#8, lrc := 0x55#8 }) = some (0x00#8, 0x00#8) := by decide +kernel
/-- V-R-5: low byte first. -/
theorem test_crc16App :
    seen (fun t => t.covered 8) (exec (.crc16App 6) (e1 [])) =
      some [0x01#8, 0x03#8, 0x00#8, 0x00#8, 0x00#8, 0x02#8, 0xC4#8, 0x0B#8] := by decide +kernel
/-- V-B-18: `RANGE` at 15 + 2 > 16. -/
theorem test_crc16App_range : seen State.status (exec (.crc16App 15) (e1 [])) = some 0x22#8 := by decide +kernel
/-- V-R-7. -/
theorem test_lrcApp : seen (fun t => (t.lrc, t.memRead1 6)) (exec (.lrcApp 6) (e3 [])) = some (0xF6#8, 0xF6#8) := by decide +kernel
/-- V-B-19. -/
theorem test_lrcApp_range : seen State.status (exec (.lrcApp 16) (e3 [])) = some 0x22#8 := by decide +kernel
/-- V-R-9. -/
theorem test_crc16Chk : seen (fun t => (t.crc, t.status)) (exec (.crc16Chk 8) (e1 [0xC4#8, 0x0B#8])) = some (0x0BC4#16, 0x01#8) := by decide +kernel
/-- V-R-11: the two bytes swapped. -/
theorem test_crc16Chk_swapped : seen (fun t => (t.crc, t.status)) (exec (.crc16Chk 8) (e1 [0x0B#8, 0xC4#8])) = some (0x0BC4#16, 0x00#8) := by decide +kernel
/-- V-R-14. -/
theorem test_lrcChk : seen (fun t => (t.sum, t.lrc, t.status)) (exec (.lrcChk 7) (e3 [0xF6#8])) = some (0x0A#8, 0xF6#8, 0x01#8) := by decide +kernel
/-- V-B-15: `SHORT`, `MATCH` stays. -/
theorem test_lrcChk_short : seen State.status (exec (.lrcChk 0) { e3 [] with matched := true }) = some 0x33#8 := by decide +kernel
/-- V-S-1. -/
theorem test_crcInit : seen State.crc (present 0x10000000 { e1 [] with crc := 0x1234#16 }) = some 0xFFFF#16 := by decide +kernel
/-- V-S-4. -/
theorem test_crcUpd : seen State.crc (present 0x11C40000 { e1 [] with crc := 0x0BC4#16 }) = some 0x000B#16 := by decide +kernel
/-- V-S-7: not a no-op. -/
theorem test_crcUpd_zero : seen State.crc (present 0x11000000 (e1 [])) = some 0x40BF#16 := by decide +kernel
/-- V-S-8: `LRC` stays. -/
theorem test_lrcInit : seen (fun t => (t.sum, t.lrc)) (present 0x12000000 { e1 [] with sum := 0x0A#8, lrc := 0xF6#8 }) = some (0x00#8, 0xF6#8) := by decide +kernel
/-- V-S-11: the carry is dropped. -/
theorem test_lrcUpd : seen State.sum (present 0x13FF0000 { e1 [] with sum := 0x17#8 }) = some 0x16#8 := by decide +kernel
/-- V-S-12. -/
theorem test_lrcFin : seen (fun t => (t.sum, t.lrc)) (present 0x14000000 { e1 [] with sum := 0x0A#8 }) = some (0x0A#8, 0xF6#8) := by decide +kernel
/-- V-S-13: the ninth bit is masked. -/
theorem test_lrcFin_zero : seen State.lrc (present 0x14000000 { e1 [] with lrc := 0x55#8 }) = some 0x00#8 := by decide +kernel
/-- V-B-1. -/
theorem test_nop : nextOf (present 0x00000000 (e1 [])) = some (e1 []) := by decide +kernel
/-- V-B-2: only `buf[2]` changes. -/
theorem test_stb : seen (fun t => t.covered 4) (present 0x20FF0002 (e1 [])) = some [0x01#8, 0x03#8, 0xFF#8, 0x00#8] := by decide +kernel
/-- V-B-21: the first cause is kept. -/
theorem test_stb_range : seen (fun t => (t.cause, t.buf)) (present 0x20AA0010 { e1 [] with err := true, cause := .short }) = some (.short, (e1 []).buf) := by decide +kernel
/-- V-B-3. -/
theorem test_ldb : seen State.dout (present 0x21000007 (e1 [0xC4#8, 0x0B#8])) = some 0x0B#8 := by decide +kernel
/-- A byte not written since Reset: its free value (U1). -/
theorem test_ldb_unwritten : seen State.dout (exec (.ldb 9) (e1 [])) = some (Config.resetByte 0 9) := by rfl
/-- V-B-22: `MATCH` stays. -/
theorem test_clre : seen State.status (present 0x30000000 { e1 [] with err := true, cause := .short, matched := true }) = some 0x01#8 := by decide +kernel
/-- V-B-7. -/
theorem test_illegal : seen State.status (present 0x07000000 (e1 [])) = some 0x12#8 := by decide +kernel
/-- R115: Reset forgets `buf` and clears `STATUS`. -/
theorem test_reset_event :
    seen (fun t => (t.crc, t.status, t.buf, t.config)) (step { e1 [] with crc := 0#16, err := true, cause := .range, inputs := [.reset] }) =
      some (0xFFFF#16, 0x00#8, [], ⟨16⟩) := by decide +kernel

/-! ### A state and operands that meet each statement's hypotheses, at the ends of their ranges -/

theorem witness_DecodeOfEncode : (Instr.crc16 65535).wf = true ∧ (Instr.stb 65535 0xFF#8).wf = true := by decide
theorem witness_EncodeOfDecode : decode 0x2000FFFF#32 = .command (.stb 65535 0x00#8) := by decide
theorem witness_ReservedOpcodeFaultsIllegal :
    (0x07 ≤ (0x07000000#32).toNat / 0x1000000 ∧ (0x07000000#32).toNat / 0x1000000 ≤ 0x0F) ∧
    (0x15 ≤ (0x1F000000#32).toNat / 0x1000000 ∧ (0x1F000000#32).toNat / 0x1000000 ≤ 0x1F) ∧
    (0x22 ≤ (0x22000000#32).toNat / 0x1000000 ∧ (0x22000000#32).toNat / 0x1000000 ≤ 0x2F) ∧
    (0x31 ≤ (0xFFFFFFFF#32).toNat / 0x1000000 ∧ (0xFFFFFFFF#32).toNat / 0x1000000 ≤ 0xFF) ∧
    (State.reset.setInputs [.command 0xFFFFFFFF#32]).inputs = .command 0xFFFFFFFF#32 :: [] := by decide
theorem witness_MustBeZeroFieldFaultsIllegal :
    (0x30000100#32).toNat / 0x1000000 = 0x30 ∧ (0x30000100#32).toNat % 0x10000 ≠ 0 ∧
    (0x21FF0000#32).toNat / 0x1000000 = 0x21 ∧ (0x21FF0000#32).toNat / 0x10000 % 0x100 ≠ 0 ∧
    (0x13000001#32).toNat / 0x1000000 = 0x13 ∧ (0x13000001#32).toNat % 0x10000 ≠ 0 ∧
    (State.reset.setInputs [.command 0x30000100#32]).inputs = .command 0x30000100#32 :: [] := by decide
theorem witness_StepRunsPresentedCommand :
    (State.reset.setInputs [.command 0x2000FFFF#32]).inputs = .command 0x2000FFFF#32 :: [] ∧
    decode 0x2000FFFF#32 = .command (.stb 65535 0x00#8) ∧ decodeTableWord 32 0x2000FFFF = some (.stb 65535 0x00#8) := by decide
theorem witness_StepWithNothingPresented : State.reset.inputs = [] := rfl
theorem witness_ResetEffect : (State.reset.setInputs [.reset]).inputs = .reset :: [] := rfl
theorem witness_ResetValuesAndStableBuffer : ∀ i ∈ [Instr.stb 8 0x00#8, .crc16App 5, .nop], 7 ∉ storesAt i := by decide
theorem witness_ResetMeetsInvariant : (⟨4⟩ : Config).legal ∧ (⟨65535⟩ : Config).legal := by decide
theorem witness_StepKeepsInvariant :
    (State.reset.setInputs [.command 0x20FF0002#32]).Inv ∧
    ∃ t, step (State.reset.setInputs [.command 0x20FF0002#32]) = .next t := ⟨by decide, _, rfl⟩
theorem witness_FaultProcedure :
    commandFault (.crc16App 255) State.reset = some .range ∧ commandFault (.crc16Chk 1) State.reset = some .short := by decide
theorem witness_FaultTableIsComplete :
    commandFault (.crc16App 254) State.reset = none ∧ commandFault .clre State.reset = none := by decide
theorem witness_OneFaultPerCommand :
    State.reset.config.legal ∧ decode 0x07000000#32 = .illegal .reservedOp ∧
    (State.reset.setInputs [.command 0x07000000#32]).inputs = .command 0x07000000#32 :: [] := by decide
theorem witness_StatusIsNoInput :
    commandFault (.crc16Chk 256) State.reset = none ∧ commandFault (.lrcChk 1) State.reset = none ∧
    commandFault (.crc16App 254) State.reset = none ∧ commandFault .clre State.reset = none ∧
    commandFault (.crc16Chk 1) State.reset = some .short ∧ commandFault (.lrcChk 257) State.reset = some .range ∧
    ∀ len, Instr.crc16App 254 ≠ .crc16Chk len ∧ Instr.crc16App 254 ≠ .lrcChk len :=
  ⟨by decide, by decide, by decide, by decide, by decide, by decide, fun _ => ⟨nofun, nofun⟩⟩
theorem witness_OnlyClreAndResetClearErr :
    let s : State := { State.reset with err := true, cause := .short, inputs := [.command 0x00000000#32] }
    (∃ t, step s = .next t) ∧ s.err = true ∧ s.inputs.head? ≠ some .reset ∧ decode 0x00000000#32 ≠ .command .clre :=
  ⟨⟨_, rfl⟩, rfl, by decide, by decide⟩
theorem witness_StatusLayout : (e1 []).observe = (e3 []).observe ∧ e1 [] ≠ e3 [] := by decide
theorem witness_MatchChangesOnlyByCheck :
    seen State.matched (present 0x05000002 (filled [0xFF#8, 0xFF#8])) = some true ∧
    (filled [0xFF#8, 0xFF#8]).matched = false ∧
    seen State.matched (step { filled [] with matched := true, inputs := [.reset] }) = some false := by decide +kernel
theorem witness_ErrTellsWhetherRunWasClean : ∀ i ∈ [Instr.crc16 257, .nop], i ≠ .clre := by decide
theorem witness_CommandsWriteOnlyTheirRegisters :
    storesAt .nop = [] ∧ 5 ∉ storesAt (.crc16App 3) ∧
    commandFault (.crc16App 254) State.reset = none ∧ Instr.crc16App 254 ≠ .clre ∧
    (∀ b len, Instr.nop ≠ .crcInit ∧ Instr.nop ≠ .crcUpd b ∧ Instr.nop ≠ .crc16 len ∧ Instr.nop ≠ .crc16App len ∧
      Instr.nop ≠ .crc16Chk len) ∧
    (∀ b len, Instr.nop ≠ .lrcInit ∧ Instr.nop ≠ .lrcUpd b ∧ Instr.nop ≠ .lrc len ∧ Instr.nop ≠ .lrcApp len ∧
      Instr.nop ≠ .lrcChk len) ∧
    (∀ len, Instr.nop ≠ .lrcFin ∧ Instr.nop ≠ .lrc len ∧ Instr.nop ≠ .lrcApp len ∧ Instr.nop ≠ .lrcChk len) ∧
    (∀ addr, Instr.nop ≠ .ldb addr) ∧ (∀ len, Instr.nop ≠ .crc16Chk len ∧ Instr.nop ≠ .lrcChk len) := by
  refine ⟨rfl, by decide, by decide, by decide, ?_, ?_, ?_, ?_, ?_⟩ <;> simp
theorem witness_RangeCommandsArePure : 254 + 2 ≤ State.reset.bufBytes ∧ 255 + 1 ≤ State.reset.bufBytes := by decide
theorem witness_LoadReadsLatestStore :
    (∀ i ∈ [Instr.nop, .stb 3 0x00#8], 254 ∉ storesAt i) ∧ 254 + 1 < State.reset.bufBytes ∧ 1 ≤ 254 := by decide
theorem witness_Crc16Effect :
    State.reset.bufBytes < 257 ∧ 256 ≤ State.reset.bufBytes ∧ 6 ≤ (e1 []).bufBytes ∧
    (e1 []).covered 6 = [0x01#8, 0x03#8, 0x00#8, 0x00#8, 0x00#8, 0x02#8] := by decide
theorem witness_LrcEffect :
    State.reset.bufBytes < 257 ∧ 256 ≤ State.reset.bufBytes ∧ 6 ≤ (e3 []).bufBytes ∧
    (e3 []).covered 6 = [0x01#8, 0x01#8, 0x00#8, 0x00#8, 0x00#8, 0x08#8] ∧
    ((((filled [0x80#8, 0x80#8]).covered 2).map BitVec.toNat).sum % 256 = 0) ∧
    ((((filled [0x7F#8, 0x01#8]).covered 2).map BitVec.toNat).sum % 256 = 0x80) := by decide
theorem witness_Crc16AppEffect :
    State.reset.bufBytes < 255 + 2 ∧ 254 + 2 ≤ State.reset.bufBytes ∧ 8 ≤ (e1 []).bufBytes ∧
    (e1 []).covered 6 = [0x01#8, 0x03#8, 0x00#8, 0x00#8, 0x00#8, 0x02#8] := by decide
theorem witness_LrcAppEffect :
    State.reset.bufBytes < 256 + 1 ∧ 255 + 1 ≤ State.reset.bufBytes ∧ 7 ≤ (e3 []).bufBytes ∧
    (e3 []).covered 6 = [0x01#8, 0x01#8, 0x00#8, 0x00#8, 0x00#8, 0x08#8] := by decide
theorem witness_Crc16ChkEffect :
    1 < 2 ∧ (¬2 < 2 ∧ State.reset.bufBytes < 257) ∧ (¬256 < 2 ∧ ¬State.reset.bufBytes < 256) ∧ State.reset.config.legal ∧
    8 ≤ (e1 []).bufBytes ∧
    (e1 [0xC4#8, 0x0B#8]).covered 8 = [0x01#8, 0x03#8, 0x00#8, 0x00#8, 0x00#8, 0x02#8, 0xC4#8, 0x0B#8] ∧
    (e1 [0xC4#8, 0x0A#8]).covered 8 = [0x01#8, 0x03#8, 0x00#8, 0x00#8, 0x00#8, 0x02#8, 0xC4#8, 0x0A#8] := by decide
theorem witness_LrcChkEffect :
    0 < 1 ∧ (¬1 < 1 ∧ State.reset.bufBytes < 257) ∧ (¬256 < 1 ∧ ¬State.reset.bufBytes < 256) ∧ 7 ≤ (e3 []).bufBytes ∧
    (e3 [0xF6#8]).covered 7 = [0x01#8, 0x01#8, 0x00#8, 0x00#8, 0x00#8, 0x08#8, 0xF6#8] ∧
    (e3 [0xF7#8]).covered 7 = [0x01#8, 0x01#8, 0x00#8, 0x00#8, 0x00#8, 0x08#8, 0xF7#8] := by decide
theorem witness_CrcInitEffect : (0x10000001#32).toNat / 0x1000000 = 0x10 ∧ 0x10000001#32 ≠ 0x10000000#32 := by decide
theorem witness_CrcUpdEffect :
    (0x11AB0001#32).toNat / 0x1000000 = 0x11 ∧ (0x11AB0001#32).toNat % 0x10000 ≠ 0 ∧ State.reset.crc = 0xFFFF#16 ∧
    0 ≤ ([] : List Byte).length ∧ State.reset.crc = crc16 [] 0 := by decide
theorem witness_LrcInitEffect : (0x12010000#32).toNat / 0x1000000 = 0x12 ∧ 0x12010000#32 ≠ 0x12000000#32 := by decide
theorem witness_LrcUpdEffect : (State.reset.setSum 0xFF#8).sum = 0xFF#8 ∧ (State.reset.setSum 0x02#8).sum = 0x02#8 := by decide
theorem witness_LrcFinEffect :
    State.reset.sum = 0x00#8 ∧ (State.reset.setSum 0x80#8).sum = 0x80#8 ∧ (State.reset.setSum 0x0A#8).sum = 0x0A#8 := by decide
theorem witness_NopEffect : (0x00000001#32).toNat / 0x1000000 = 0x00 ∧ 0x00000001#32 ≠ 0x00000000#32 := by decide
theorem witness_StbEffect : State.reset.bufBytes ≤ 256 ∧ 255 < State.reset.bufBytes ∧ 2 < State.reset.bufBytes := by decide
theorem witness_LdbEffect :
    (0x21FF0000#32).toNat / 0x1000000 = 0x21 ∧ (0x21FF0000#32).toNat / 0x10000 % 0x100 ≠ 0 ∧ State.reset.bufBytes ≤ 256 ∧
    255 < State.reset.bufBytes ∧ Memory.lookup State.reset.buf 255 = none ∧ 8 ≤ (e1 []).bufBytes ∧
    (e1 []).covered 6 = [0x01#8, 0x03#8, 0x00#8, 0x00#8, 0x00#8, 0x02#8] := by decide
theorem witness_ClreEffect :
    (0x30000100#32).toNat / 0x1000000 = 0x30 ∧ 0x30000100#32 ≠ 0x30000000#32 ∧ State.reset.Inv ∧ State.reset.err = false ∧
    ({ State.reset with err := true, cause := .range } : State).status = 0x22#8 ∧
    ({ State.reset with err := true, cause := .illegal, matched := true } : State).status = 0x13#8 ∧
    seen State.err (exec .clre { State.reset with err := true, cause := .range }) = some false := by decide
theorem witness_CrcFunction : [0x01#8, 0x03#8][1]? = some 0x03#8 := by decide
theorem witness_ByteSum : [0x03#8, 0x01#8].Perm ([0x01#8, 0x03#8, 0x05#8].take 2) := by decide
theorem witness_ChecksumsReadOnlyTheirRange : ∀ i < 1, [0x01#8, 0x03#8][i]? = [0x01#8, 0x05#8][i]? := by decide
theorem witness_SourceProperties : 2 ≤ [0x01#8, 0x03#8].length ∧ 1 < 2 ∧ 7 < 8 ∧ [0x01#8, 0x03#8][1]? = some 0x03#8 := by decide
theorem witness_CrcIsLinear :
    [0x01#8].length = [0x03#8].length ∧ ((0x01#8, 0x02#8) : Byte × Byte) ≠ (0x01#8, 0x03#8) ∧ 0x01#8 ≠ 0x03#8 := by decide
theorem witness_CrcStepLaws : 7 < 8 ∧ [0x01#8, 0x03#8][1]? = some 0x03#8 := by decide
theorem witness_CrcAppendLaw :
    ({ State.reset with crc := 0x807E#16 } : State).crc = crc16 [0x01#8] [0x01#8].length := by decide +kernel
theorem witness_LrcLaws : 1 < 2 ∧ 7 < 8 ∧ [0x01#8, 0x03#8][1]? = some 0x03#8 := by decide
theorem witness_AppendThenCheckMatches :
    0 + 2 ≤ State.reset.bufBytes ∧ 6 + 2 ≤ State.reset.bufBytes ∧ 7 + 1 ≤ State.reset.bufBytes ∧
    (∀ i ∈ [Instr.nop, .clre, .crc16 9], ∀ a < 0 + 2, a ∉ storesAt i) ∧
    (∀ i ∈ [Instr.stb 8 0x00#8, .lrcApp 9], ∀ a < 6 + 2, a ∉ storesAt i) ∧
    (∀ i ∈ [Instr.stb 8 0x00#8, .lrcApp 9], ∀ a < 7 + 1, a ∉ storesAt i) := by decide
theorem witness_FlippedBitFailsTheCheck : 254 + 2 ≤ State.reset.bufBytes ∧ 255 < 254 + 2 ∧ 255 + 1 ≤ State.reset.bufBytes ∧ 7 < 8 := by decide
theorem witness_RangeEqualsStream : 256 ≤ State.reset.bufBytes ∧ 0 ≤ State.reset.bufBytes := by decide
theorem witness_StreamedResidueAgreesWithCheck : 2 ≤ 256 ∧ 1 ≤ 256 ∧ 256 ≤ State.reset.bufBytes := by decide
theorem witness_CrcAndLrcSidesCommute :
    256 ≤ State.reset.bufBytes ∧ Instr.crc16 256 ∈ [Instr.crcInit, .crcUpd 0x01#8, .crc16 256] ∧
    Instr.lrc 0 ∈ [Instr.lrcInit, .lrcUpd 0x01#8, .lrcFin, .lrc 0] := by decide

end Sys2Proof.Tests
end

