-- ==== Sys2Proof/Proofs/StableBuffer.lean ====
section
/-! PROOFS. What a list of commands keeps, and the frame of `buf` (10_state.md R20, R36). -/

namespace Sys2Proof.Machine

/-- A list of commands always answers a next state, and keeps what each of its commands keeps. -/
theorem execAll_keeps {P : State → Prop} {is : List Instr}
    (hkeep : ∀ i ∈ is, ∀ s t, exec i s = .next t → P s → P t) {s : State} (hs : P s) :
    ∃ t, execAll is s = .next t ∧ P t := by
  induction is generalizing s with
  | nil => exact ⟨s, rfl, hs⟩
  | cons i rest ih =>
    obtain ⟨hi, hrest⟩ := List.forall_mem_cons.1 hkeep
    simpa only [execAll, exec_eq] using ih hrest (hi s _ (exec_eq i s) hs)

/-- The effect of a command leaves every byte it does not store to. -/
theorem effectOf_memRead1 {i : Instr} {a : Nat} (ha : a ∉ storesAt i) (s : State) :
    (effectOf i s).memRead1 a = s.memRead1 a := by
  cases i with
  | crc16App len =>
    obtain ⟨hlo, hhi⟩ : a ≠ len ∧ a ≠ len + 1 := by simpa [storesAt] using ha
    simp [effectOf, State.memWrite2_memRead1, hlo, hhi]
  | lrcApp len =>
    have hne : a ≠ len := by simpa [storesAt] using ha
    simp [effectOf, State.memWrite1_memRead1, hne]
  | stb addr b =>
    have hne : a ≠ addr := by simpa [storesAt] using ha
    simp [effectOf, State.memWrite1_memRead1, hne]
  | _ => rfl

/-- A command, faulting or not, leaves every byte it does not store to. -/
theorem exec_memRead1 {i : Instr} {s t : State} {a : Nat} (hexec : exec i s = .next t) (ha : a ∉ storesAt i) :
    t.memRead1 a = s.memRead1 a := by
  rw [exec_eq, Host.Outcome.next.injEq] at hexec
  subst hexec
  cases commandFault i s with
  | none => exact effectOf_memRead1 ha s
  | some code => exact s.raiseFault_memRead1 code a

/-- A list of commands leaves every byte none of them stores to. -/
theorem execAll_memRead1 {is : List Instr} {a : Nat} (ha : ∀ i ∈ is, a ∉ storesAt i) (s : State) :
    ∃ t, execAll is s = .next t ∧ t.memRead1 a = s.memRead1 a :=
  execAll_keeps (P := fun t => t.memRead1 a = s.memRead1 a)
    (fun i hi _ _ hexec hu => (exec_memRead1 hexec (ha i hi)).trans hu) rfl

/-- A byte read just after Reset has its free value. -/
theorem State.afterReset_memRead1 (cfg : Config) (k : Nat) (inputs : List HostInput) (a : Nat) :
    (State.afterReset cfg k inputs).memRead1 a = Config.resetByte k a := rfl

/-- Just after Reset `STATUS` reads 0x00. -/
theorem State.afterReset_status (cfg : Config) (k : Nat) (inputs : List HostInput) :
    (State.afterReset cfg k inputs).status = 0x00#8 := by
  simp [State.status, State.afterReset, Cause.code]

/-- Settles O10: the registers hold R20's values by the definition of the state after Reset; a byte of `buf` is stable
because no command, faulting or not, changes a byte it does not store to. -/
theorem resetValuesAndStableBuffer : Obligations.ResetValuesAndStableBuffer :=
  ⟨fun cfg k inputs => ⟨rfl, rfl, rfl, rfl, rfl, rfl, rfl, State.afterReset_status cfg k inputs,
      State.afterReset_memRead1 cfg k inputs⟩,
    fun _ s _ hstores => execAll_memRead1 hstores s⟩

end Sys2Proof.Machine
end

