-- ==== Sys2Proof/Proofs/RangeFrame.lean ====
section
/-! PROOFS. What the range commands write in `buf`, and what they leave (20_memory.md R32). -/

namespace Sys2Proof.Machine

/-- Every command answers a next state. -/
theorem exec_next (i : Instr) (s : State) : ∃ t, exec i s = .next t := ⟨_, exec_eq i s⟩

/-- A command whose fault condition does not hold has its effect. -/
theorem exec_of_no_fault {i : Instr} {s : State} (hclean : commandFault i s = none) :
    exec i s = .next (effectOf i s) := by
  rw [exec_eq, hclean, Option.elim_none]

/-- The effect of a command that stores nowhere keeps `buf` itself, its list of written bytes included. -/
theorem effectOf_buf {i : Instr} (hstores : storesAt i = []) (s : State) : (effectOf i s).buf = s.buf := by
  cases i with
  | crc16App len => exact absurd hstores (List.cons_ne_nil _ _)
  | lrcApp len => exact absurd hstores (List.cons_ne_nil _ _)
  | stb addr b => exact absurd hstores (List.cons_ne_nil _ _)
  | _ => rfl

/-- A command that stores nowhere, faulting or not, keeps `buf`. -/
theorem exec_buf {i : Instr} {s t : State} (hexec : exec i s = .next t) (hstores : storesAt i = []) :
    t.buf = s.buf := by
  rw [exec_eq, Host.Outcome.next.injEq] at hexec
  subst hexec
  cases commandFault i s with
  | none => exact effectOf_buf hstores s
  | some code => exact s.raiseFault_buf code

/-- `CRC16.APP` does not fault exactly when the covered range and its CRC fit in `buf` (R102). -/
theorem commandFault_crc16App_eq_none {len : Nat} {s : State} :
    commandFault (.crc16App len) s = none ↔ len + 2 ≤ s.bufBytes := by
  simp [commandFault]

/-- `LRC.APP` does not fault exactly when the covered range and its LRC fit in `buf` (R102). -/
theorem commandFault_lrcApp_eq_none {len : Nat} {s : State} :
    commandFault (.lrcApp len) s = none ↔ len + 1 ≤ s.bufBytes := by
  simp [commandFault]

/-- `CRC16.APP` puts the CRC's low byte right after the covered range (R27, R67). -/
theorem effectOf_crc16App_memRead1_lo (len : Nat) (s : State) :
    (effectOf (.crc16App len) s).memRead1 len = lo8 (crc16 (s.covered len) len) := by
  simp [effectOf, State.memWrite2_memRead1]

/-- `CRC16.APP` puts the CRC's high byte after the low one (R27, R67). -/
theorem effectOf_crc16App_memRead1_hi (len : Nat) (s : State) :
    (effectOf (.crc16App len) s).memRead1 (len + 1) = hi8 (crc16 (s.covered len) len) := by
  simp [effectOf, State.memWrite2_memRead1]

/-- `LRC.APP` puts the LRC right after the covered range (R68). -/
theorem effectOf_lrcApp_memRead1 (len : Nat) (s : State) :
    (effectOf (.lrcApp len) s).memRead1 len = lrcOf (s.covered len) len := by
  simp [effectOf, State.memWrite1_memRead1, lrcOf]

/-- The four range commands used for validation store nowhere. -/
theorem storesAt_of_validation {len : Nat} {i : Instr}
    (hi : i ∈ [Instr.crc16 len, .lrc len, .crc16Chk len, .lrcChk len]) : storesAt i = [] := by
  simp only [List.mem_cons, List.not_mem_nil, or_false] at hi
  obtain rfl | rfl | rfl | rfl := hi <;> rfl

/-- A range command over `len` bytes stores at no address below `len`: an append stores from `len` on. -/
theorem le_of_mem_storesAt_range {len a : Nat} {i : Instr}
    (hi : i ∈ [Instr.crc16 len, .lrc len, .crc16App len, .lrcApp len, .crc16Chk len, .lrcChk len])
    (ha : a ∈ storesAt i) : len ≤ a := by
  simp only [List.mem_cons, List.not_mem_nil, or_false] at hi
  obtain rfl | rfl | rfl | rfl | rfl | rfl := hi <;>
    simp only [storesAt, List.mem_cons, List.not_mem_nil, or_false] at ha <;> omega

/-- Settles O24: the validation commands store nowhere; what an append leaves is the frame of `storesAt`, and every address
it stores to lies at or past `len`, faulting or not. -/
theorem rangeCommandsArePure : Obligations.RangeCommandsArePure := by
  intro len s
  refine ⟨fun i hi => ?validation, fun hfits => ?crc16App, fun hfits => ?lrcApp, fun i hi => ?covered⟩
  case validation =>
    obtain ⟨t, ht⟩ := exec_next i s
    exact ⟨t, ht, exec_buf ht (storesAt_of_validation hi)⟩
  case crc16App =>
    refine ⟨_, exec_of_no_fault (commandFault_crc16App_eq_none.2 hfits), effectOf_crc16App_memRead1_lo len s,
      effectOf_crc16App_memRead1_hi len s, fun a hlo hhi => effectOf_memRead1 ?_ s⟩
    simp [storesAt, hlo, hhi]
  case lrcApp =>
    refine ⟨_, exec_of_no_fault (commandFault_lrcApp_eq_none.2 hfits), effectOf_lrcApp_memRead1 len s,
      fun a hne => effectOf_memRead1 ?_ s⟩
    simp [storesAt, hne]
  case covered =>
    obtain ⟨t, ht⟩ := exec_next i s
    exact ⟨t, ht, fun a ha => exec_memRead1 ht fun hmem => ha.not_ge (le_of_mem_storesAt_range hi hmem)⟩

end Sys2Proof.Machine
end

