-- ==== Sys2Proof/Proofs/Encoding.lean ====
section
/-! PROOFS. Which words are commands and which are illegal (30_encoding.md R41 to R46). -/

namespace Sys2Proof

/-- The `op` of a command's row of the opcode map (R44). -/
def Instr.opcode : Instr → Nat
  | .nop => 0x00
  | .crc16 _ => 0x01
  | .lrc _ => 0x02
  | .crc16App _ => 0x03
  | .lrcApp _ => 0x04
  | .crc16Chk _ => 0x05
  | .lrcChk _ => 0x06
  | .crcInit => 0x10
  | .crcUpd _ => 0x11
  | .lrcInit => 0x12
  | .lrcUpd _ => 0x13
  | .lrcFin => 0x14
  | .stb _ _ => 0x20
  | .ldb _ => 0x21
  | .clre => 0x30

/-- What a command puts in the field `imm8`: its byte operand, else 0 (R42). -/
def Instr.imm8 : Instr → Byte
  | .crcUpd b => b
  | .lrcUpd b => b
  | .stb _ b => b
  | _ => 0

/-- What a command puts in the field `n16`: its length or address, else 0 (R42). -/
def Instr.n16 : Instr → Nat
  | .crc16 len => len
  | .lrc len => len
  | .crc16App len => len
  | .lrcApp len => len
  | .crc16Chk len => len
  | .lrcChk len => len
  | .stb addr _ => addr
  | .ldb addr => addr
  | _ => 0

/-- A command's operands fit their fields exactly when its length or address fits `n16` (R43). -/
theorem Instr.wf_iff (i : Instr) : i.wf = true ↔ i.n16 < 0x10000 := by
  cases i <;> simp [Instr.wf, Instr.n16, fitsN16]

/-- The field `n16` has 16 bits (R41). -/
theorem n16Field_lt (w : Word) : n16Field w < 0x10000 := (w.extractLsb' 0 16).isLt

/-- A word is a command's row of the opcode map exactly when its three fields are the command's (R41, R44). -/
theorem toNat_eq_opcodeNumber_iff {w : Word} {i : Instr} (hn16 : i.n16 < 0x10000) :
    w.toNat = Machine.opcodeNumber i ↔
      opField w = i.opcode ∧ imm8Field w = i.imm8 ∧ n16Field w = i.n16 := by
  have himm8 := i.imm8.isLt
  rw [opField_eq, BitVec.toNat_eq, imm8Field_toNat, n16Field_eq]
  cases i <;> simp only [Machine.opcodeNumber, Instr.opcode, Instr.imm8, Instr.n16, BitVec.ofNat_eq_ofNat,
    BitVec.toNat_ofNat] at * <;> omega

/-- Form Z accepts a word with both fields 0, and only as its own command (R42). -/
theorem formZ_eq_command {w : Word} {mk i : Instr} :
    formZ mk w = .command i ↔ (imm8Field w = 0 ∧ n16Field w = 0) ∧ i = mk := by
  unfold formZ
  split <;> simp_all [eq_comm (a := i)]

/-- The forms with the operand `n16` alone accept a word with `imm8` 0 (R42). -/
theorem formN_eq_command {w : Word} {mk : Nat → Instr} {i : Instr} :
    formN mk w = .command i ↔ imm8Field w = 0 ∧ i = mk (n16Field w) := by
  unfold formN
  split <;> simp_all [eq_comm (a := i)]

/-- Form I accepts a word with `n16` 0 (R42). -/
theorem formI_eq_command {w : Word} {mk : Byte → Instr} {i : Instr} :
    formI mk w = .command i ↔ n16Field w = 0 ∧ i = mk (imm8Field w) := by
  unfold formI
  split <;> simp_all [eq_comm (a := i)]

/-- Form A of `STB` accepts every word (R42). -/
theorem formA_eq_command {w : Word} {mk : Nat → Byte → Instr} {i : Instr} :
    formA mk w = .command i ↔ i = mk (n16Field w) (imm8Field w) := by
  rw [formA, Decoded.command.injEq, eq_comm]

/-- A word decodes to a command exactly when its fields are that command's (R42, R44). -/
theorem decode_eq_command_iff {w : Word} {i : Instr} :
    decode w = .command i ↔ opField w = i.opcode ∧ imm8Field w = i.imm8 ∧ n16Field w = i.n16 := by
  constructor
  · intro h
    unfold decode at h
    split at h <;>
      simp_all [formZ_eq_command, formN_eq_command, formI_eq_command, formA_eq_command,
        Instr.opcode, Instr.imm8, Instr.n16]
  · rintro ⟨hop, himm8, hn16⟩
    cases i <;> simp_all [decode, Instr.opcode, Instr.imm8, Instr.n16,
      formZ_eq_command, formN_eq_command, formI_eq_command, formA_eq_command]

/-- Settles O3: both sides say that the word's three fields are the command's. -/
theorem decodeFollowsOpcodeMap : Obligations.DecodeFollowsOpcodeMap := by
  intro w i
  rw [decode_eq_command_iff, Instr.wf_iff]
  constructor
  · rintro ⟨hop, himm8, hn16⟩
    have hfits : i.n16 < 0x10000 := hn16 ▸ n16Field_lt w
    exact ⟨hfits, (toNat_eq_opcodeNumber_iff hfits).2 ⟨hop, himm8, hn16⟩⟩
  · rintro ⟨hfits, hw⟩
    exact (toNat_eq_opcodeNumber_iff hfits).1 hw

/-- A word whose `op` is none of the 15 of the opcode map is reserved (R44, R45). -/
theorem decode_reservedOp {w : Word}
    (hop : opField w ∉ [0x00, 0x01, 0x02, 0x03, 0x04, 0x05, 0x06, 0x10, 0x11, 0x12, 0x13, 0x14, 0x20, 0x21, 0x30]) :
    decode w = .illegal .reservedOp := by
  unfold decode
  split <;> simp_all

/-- The words read in form Z, with no operand (R42, R44). -/
theorem decode_formZ {w : Word}
    (hop : opField w = 0x00 ∨ opField w = 0x10 ∨ opField w = 0x12 ∨ opField w = 0x14 ∨ opField w = 0x30) :
    ∃ mk, decode w = formZ mk w := by
  rcases hop with h | h | h | h | h <;> simp only [decode, h] <;> exact ⟨_, rfl⟩

/-- The words read with the operand `n16` alone: form L, and form A of `LDB` (R42, R44). -/
theorem decode_formN {w : Word}
    (hop : 1 ≤ opField w ∧ opField w ≤ 6 ∨ opField w = 0x21) : ∃ mk, decode w = formN mk w := by
  have hcases : opField w = 1 ∨ opField w = 2 ∨ opField w = 3 ∨ opField w = 4 ∨ opField w = 5 ∨ opField w = 6 ∨
      opField w = 0x21 := by omega
  rcases hcases with h | h | h | h | h | h | h <;> simp only [decode, h] <;> exact ⟨_, rfl⟩

/-- The words read in form I, with the operand `imm8` alone (R42, R44). -/
theorem decode_formI {w : Word} (hop : opField w = 0x11 ∨ opField w = 0x13) : ∃ mk, decode w = formI mk w := by
  rcases hop with h | h <;> simp only [decode, h] <;> exact ⟨_, rfl⟩

theorem formZ_mustBeZero {w : Word} (mk : Instr) (h : imm8Field w ≠ 0 ∨ n16Field w ≠ 0) :
    formZ mk w = .illegal .mustBeZero := if_neg (not_and_or.2 h)

theorem formN_mustBeZero {w : Word} (mk : Nat → Instr) (h : imm8Field w ≠ 0) :
    formN mk w = .illegal .mustBeZero := if_neg h

theorem formI_mustBeZero {w : Word} (mk : Byte → Instr) (h : n16Field w ≠ 0) :
    formI mk w = .illegal .mustBeZero := if_neg h

/-- A legal `op` with a non-zero bit in a field its form says must be 0 (R46). -/
theorem decode_mustBeZero {w : Word}
    (h : (opField w = 0x00 ∨ opField w = 0x10 ∨ opField w = 0x12 ∨ opField w = 0x14 ∨ opField w = 0x30) ∧
        (imm8Field w ≠ 0 ∨ n16Field w ≠ 0) ∨
      (1 ≤ opField w ∧ opField w ≤ 6 ∨ opField w = 0x21) ∧ imm8Field w ≠ 0 ∨
      (opField w = 0x11 ∨ opField w = 0x13) ∧ n16Field w ≠ 0) :
    decode w = .illegal .mustBeZero := by
  obtain ⟨hop, hbits⟩ | ⟨hop, hbits⟩ | ⟨hop, hbits⟩ := h
  · obtain ⟨mk, hform⟩ := decode_formZ hop
    rw [hform, formZ_mustBeZero mk hbits]
  · obtain ⟨mk, hform⟩ := decode_formN hop
    rw [hform, formN_mustBeZero mk hbits]
  · obtain ⟨mk, hform⟩ := decode_formI hop
    rw [hform, formI_mustBeZero mk hbits]

/-- A step that takes an illegal word is the fault procedure with `ILLEGAL`, the word consumed (R45, R46, R101). -/
theorem Machine.step_of_illegal {s : State} {w : Word} {rest : List HostInput} {why : Illegal}
    (hinputs : s.inputs = .command w :: rest) (hdecode : decode w = .illegal why) :
    step s = .next ((s.setInputs rest).raiseFault .illegal) := by
  simp only [step, hinputs, hdecode]

/-- Settles O4: the four ranges hold no `op` of the opcode map. -/
theorem reservedOpcodeFaultsIllegal : Obligations.ReservedOpcodeFaultsIllegal := by
  intro w op hop
  have hdecode : decode w = .illegal .reservedOp := by
    apply decode_reservedOp
    rw [opField_eq]
    simp only [List.mem_cons, List.not_mem_nil, or_false]
    omega
  exact ⟨hdecode, fun s rest hinputs => Machine.step_of_illegal hinputs hdecode⟩

/-- Settles O5: each of the three families of fields is the one its form checks. -/
theorem mustBeZeroFieldFaultsIllegal : Obligations.MustBeZeroFieldFaultsIllegal := by
  refine ⟨?_, by decide, by decide, by decide, by decide⟩
  intro w op imm8 n16 hbits
  have hdecode : decode w = .illegal .mustBeZero := by
    apply decode_mustBeZero
    rwa [opField_eq, n16Field_eq, ne_eq (imm8Field w), imm8Field_eq_zero]
  exact ⟨hdecode, fun s rest hinputs => Machine.step_of_illegal hinputs hdecode⟩

end Sys2Proof
end

