-- ==== Sys2Proof/Proofs/ChecksumFunctions.lean ====
section
/-! PROOFS. The checksum functions over the numbers and over lists of bytes (40_range_checksum.md R55 to R62). -/

namespace Sys2Proof.Machine

/-! ### The bit step and the byte step (R55, R56; law L1 of R63) -/

/-- Bit 15 after a bit step is the bit shifted out: the shift leaves 0 there and the polynomial has bit 15 set (R55). -/
theorem crc16Bit_getLsbD_15 (c : Half) : (crc16Bit c).getLsbD 15 = c.getLsbD 0 := by
  unfold crc16Bit
  split
  case isTrue hodd => simp [crcPoly, hodd]
  case isFalse heven => simpa using heven

/-- The bit step over the numbers (R55). -/
theorem crc16Bit_toNat (c : Half) :
    (crc16Bit c).toNat = if c.toNat % 2 = 1 then c.toNat / 2 ^^^ 0xA001 else c.toNat / 2 := by
  simp only [crc16Bit, BitVec.getLsbD, Nat.testBit_zero, decide_eq_true_eq]
  split <;> simp [crcPoly, Nat.shiftRight_eq_div_pow]

/-- Law L1: the inverse undoes the bit step, whose bit 15 tells it which bit to put back. -/
theorem crc16BitInverse_crc16Bit (c : Half) : crc16BitInverse (crc16Bit c) = c := by
  unfold crc16BitInverse
  rw [crc16Bit_getLsbD_15]
  split
  case isTrue hodd =>
    rw [crc16Bit, if_pos hodd, BitVec.xor_assoc, BitVec.xor_self, BitVec.xor_zero]
    apply BitVec.eq_of_getLsbD_eq
    rintro (_ | i) hi
    · simpa using hodd
    · simp [hi, Nat.add_comm 1 i]
  case isFalse heven =>
    rw [crc16Bit, if_neg heven]
    apply BitVec.eq_of_getLsbD_eq
    rintro (_ | i) hi
    · simpa using heven
    · simp [hi, Nat.add_comm 1 i]

theorem crc16Bit_injective : Function.Injective crc16Bit :=
  Function.LeftInverse.injective crc16BitInverse_crc16Bit

theorem crc16Bits_injective (k : Nat) : Function.Injective (crc16Bits k) := by
  induction k with
  | zero => exact Function.injective_id
  | succ k ih => exact ih.comp crc16Bit_injective

/-- A bit step of an even value halves it. -/
theorem crc16Bit_shiftLeft_one {c : Half} (hc : c.toNat < 2 ^ 15) : crc16Bit (c <<< 1) = c := by
  apply BitVec.eq_of_toNat_eq
  rw [crc16Bit_toNat, BitVec.toNat_shiftLeft, Nat.shiftLeft_eq, if_neg (by omega)]
  omega

/-- `k` bit steps of a value whose low `k` bits are 0 only shift them out. -/
theorem crc16Bits_shiftLeft {c : Half} {k : Nat} (hc : c.toNat * 2 ^ k < 2 ^ 16) : crc16Bits k (c <<< k) = c := by
  induction k with
  | zero => rw [BitVec.shiftLeft_zero, crc16Bits]
  | succ k ih =>
    rw [Nat.pow_succ, ← Nat.mul_assoc] at hc
    rw [BitVec.shiftLeft_add, crc16Bits, crc16Bit_shiftLeft_one, ih (by omega)]
    rw [BitVec.toNat_shiftLeft, Nat.shiftLeft_eq, Nat.mod_eq_of_lt] <;> omega

theorem crc16Bits_zero (k : Nat) : crc16Bits k 0x0000#16 = 0x0000#16 := by
  simpa using crc16Bits_shiftLeft (c := 0x0000#16) (k := k)

/-- For a fixed byte, the byte step keeps different CRC values apart. -/
theorem crc16Byte_left_injective (b : Byte) : Function.Injective (crc16Byte · b) :=
  fun _ _ h => (BitVec.xor_left_inj _).1 (crc16Bits_injective 8 h)

/-- From a fixed CRC value, the byte step keeps different bytes apart. -/
theorem crc16Byte_right_injective (c : Half) : Function.Injective (crc16Byte c) := by
  intro b b' h
  have hwide : b.setWidth 16 = b'.setWidth 16 := (BitVec.xor_right_inj c).1 (crc16Bits_injective 8 h)
  simpa using congrArg (BitVec.setWidth 8) hwide

/-! ### The CRC loop (R57) -/

theorem crcFeed_injective (m : List Byte) : Function.Injective (crcFeed · m) := by
  induction m with
  | nil => exact Function.injective_id
  | cons b m ih => exact ih.comp (crc16Byte_left_injective b)

/-- Exchanging one byte for another changes the CRC: the register differs right after that byte, and stays different (P2 of R62). -/
theorem crcFeed_set_ne {m : List Byte} {i : Nat} {b b' : Byte} (hb : m[i]? = some b) (hne : b' ≠ b) (c : Half) :
    crcFeed c (m.set i b') ≠ crcFeed c m := by
  induction m generalizing c i with
  | nil => simp at hb
  | cons x m ih =>
    cases i with
    | zero =>
      obtain rfl : x = b := by simpa using hb
      exact fun h => hne (crc16Byte_right_injective c (crcFeed_injective m h))
    | succ i => exact ih (by simpa using hb) (crc16Byte c x)

/-- A byte brings the register to 0 exactly when it is the register (law L5 of R63, for its last byte). -/
theorem crc16Byte_eq_zero_iff {c : Half} {b : Byte} : crc16Byte c b = 0x0000#16 ↔ c = b.setWidth 16 := by
  rw [crc16Byte, ← crc16Bits_zero 8, (crc16Bits_injective 8).eq_iff, BitVec.xor_eq_zero_iff]

/-- The two bytes of a CRC lie side by side: its bits are those of the one or of the other (R7). -/
theorem ofHiLo_eq_xor (hi lo : Byte) : ofHiLo hi lo = hi.setWidth 16 <<< 8 ^^^ lo.setWidth 16 := by
  apply BitVec.eq_of_getLsbD_eq
  intro i hi16
  simp only [ofHiLo, BitVec.getLsbD_append]
  by_cases hlow : i < 8
  · simp [hlow, hi16]
  · simp [hlow, hi16, BitVec.getLsbD_of_ge lo i (by omega)]

/-- Two bytes bring the register to 0 exactly when they are the register, low byte first (law L5 of R63). -/
theorem crcFeed_pair_eq_zero_iff {c : Half} {lo hi : Byte} :
    crcFeed c [lo, hi] = 0x0000#16 ↔ c = ofHiLo hi lo := by
  have hshift : crc16Bits 8 (hi.setWidth 16 <<< 8) = hi.setWidth 16 := by
    apply crc16Bits_shiftLeft
    have := hi.isLt
    simp only [BitVec.toNat_setWidth]
    omega
  calc crcFeed c [lo, hi] = 0x0000#16
      ↔ crc16Byte c lo = hi.setWidth 16 := crc16Byte_eq_zero_iff
    _ ↔ c ^^^ lo.setWidth 16 = hi.setWidth 16 <<< 8 := by
      rw [← hshift, crc16Byte, (crc16Bits_injective 8).eq_iff, hshift]
    _ ↔ c = ofHiLo hi lo := by
      rw [ofHiLo_eq_xor, ← BitVec.xor_left_inj (lo.setWidth 16), BitVec.xor_assoc, BitVec.xor_self, BitVec.xor_zero]

/-- The CRC of no bytes is the start value (R57). -/
theorem crc16_zero (bytes : List Byte) : crc16 bytes 0 = 0xFFFF#16 := rfl

theorem lo8_crcInitial : lo8 crcInitial = 0xFF#8 := by decide

theorem hi8_crcInitial : hi8 crcInitial = 0xFF#8 := by decide

/-- One more byte is one more byte step (R57). -/
theorem crc16_succ {bytes : List Byte} {n : Nat} {b : Byte} (hb : bytes[n]? = some b) :
    crc16 bytes (n + 1) = crc16Byte (crc16 bytes n) b := by
  rw [crc16, List.take_add_one, hb, crcFeed_append]
  rfl

/-- The CRC of the request of example E1. -/
theorem crc16_example : crc16 [0x01#8, 0x03#8, 0x00#8, 0x00#8, 0x00#8, 0x02#8] 6 = 0x0BC4#16 := by decide +kernel

/-! ### The byte sum and its complement (R58 to R60) -/

theorem sumFeed_toNat (s : Byte) (m : List Byte) :
    (sumFeed s m).toNat = (s.toNat + (m.map BitVec.toNat).sum) % 256 := by
  induction m generalizing s with
  | nil => simpa [sumFeed] using (Nat.mod_eq_of_lt s.isLt).symm
  | cons b m ih =>
    rw [sumFeed, ih, BitVec.toNat_add, Nat.mod_add_mod, Nat.add_assoc, List.map_cons, List.sum_cons]

/-- The byte sum over the numbers (R58). -/
theorem sum8_toNat (bytes : List Byte) (n : Nat) :
    (sum8 bytes n).toNat = ((bytes.take n).map BitVec.toNat).sum % 256 := by
  rw [sum8, sumFeed_toNat, BitVec.toNat_ofNat, Nat.zero_mod, Nat.zero_add]

/-- The sum of no bytes is 0 (R58). -/
theorem sum8_zero (bytes : List Byte) : sum8 bytes 0 = 0x00#8 := rfl

/-- The byte sum does not see the order of the bytes (R58). -/
theorem sum8_perm {bytes other : List Byte} {n : Nat} (hperm : other.Perm (bytes.take n)) :
    sum8 other other.length = sum8 bytes n := by
  apply BitVec.eq_of_toNat_eq
  rw [sum8_toNat, sum8_toNat, List.take_length, (hperm.map BitVec.toNat).sum_eq]

/-- The complement step is the negation modulo 256 (R59). -/
theorem lrcOfSum_eq_neg (s : Byte) : lrcOfSum s = -s := by
  rw [BitVec.neg_eq_not_add, ← BitVec.xor_allOnes]
  rfl

theorem lrcOfSum_zero : lrcOfSum 0x00#8 = 0x00#8 := by decide

/-- The LRC of no bytes is 0 (R60). -/
theorem lrcOf_zero (bytes : List Byte) : lrcOf bytes 0 = 0x00#8 := lrcOfSum_zero

/-- A byte is the LRC of a sum exactly when it completes the sum to 0 (law M2 of R64). -/
theorem lrcOfSum_eq_iff {s t : Byte} : lrcOfSum s = t ↔ s + t = 0x00#8 := by
  rw [lrcOfSum_eq_neg]
  exact neg_eq_iff_add_eq_zero

theorem lrcOfSum_toNat (s : Byte) : (lrcOfSum s).toNat = (256 - s.toNat) % 256 := by
  rw [lrcOfSum_eq_neg, BitVec.toNat_neg]

/-- The complement step as R59 writes it: the addition is over the numbers, the mask drops its ninth bit. -/
theorem lrcOfSum_toNat_masked (s : Byte) : (lrcOfSum s).toNat = ((s.toNat ^^^ 0xFF) + 1) &&& 0xFF := by
  rw [lrcOfSum, BitVec.toNat_add, BitVec.toNat_xor]
  exact (Nat.and_two_pow_sub_one_eq_mod _ 8).symm

/-- The sum and its LRC add to 0 modulo 256 (P4 of R62). -/
theorem toNat_add_lrcOfSum_toNat (s : Byte) : (s.toNat + (lrcOfSum s).toNat) % 256 = 0 := by
  have := s.isLt
  rw [lrcOfSum_toNat]
  omega

/-- The sum of the request of example E3. -/
theorem sum8_example : sum8 [0x01#8, 0x01#8, 0x00#8, 0x00#8, 0x00#8, 0x08#8] 6 = 0x0A#8 := by decide

/-- The LRC of the request of example E3. -/
theorem lrcOfSum_example : lrcOfSum 0x0A#8 = 0xF6#8 := by decide

/-! ### What the checksums read (R61) -/

/-- Lists that agree below `n` have the same first `n` bytes. -/
theorem take_eq_take_of_getElem?_eq {bytes other : List Byte} {n : Nat} (hagree : ∀ i < n, bytes[i]? = other[i]?) :
    bytes.take n = other.take n := by
  apply List.ext_getElem?
  intro i
  rw [List.getElem?_take, List.getElem?_take]
  split
  · exact hagree i ‹_›
  · rfl

theorem crc16_congr {bytes other : List Byte} {n : Nat} (htake : bytes.take n = other.take n) :
    crc16 bytes n = crc16 other n := by
  rw [crc16, htake, crc16]

theorem lrcOf_congr {bytes other : List Byte} {n : Nat} (htake : bytes.take n = other.take n) :
    lrcOf bytes n = lrcOf other n := by
  rw [lrcOf, sum8, htake, lrcOf, sum8]

/-- Putting bytes right after the first `n` leaves those. -/
theorem take_stored {bytes : List Byte} {n : Nat} (hn : n ≤ bytes.length) (check rest : List Byte) :
    (bytes.take n ++ check ++ rest).take n = bytes.take n := by
  rw [List.append_assoc, List.take_left' (List.length_take_of_le hn)]

/-- The bytes right after the first `n` are those put there. -/
theorem getElem?_stored {bytes : List Byte} {n j : Nat} (hn : n ≤ bytes.length) {check : List Byte}
    (hj : j < check.length) (rest : List Byte) :
    (bytes.take n ++ check ++ rest)[n + j]? = check[j]? := by
  rw [List.append_assoc, List.getElem?_append_right, List.length_take_of_le hn, Nat.add_sub_cancel_left,
    List.getElem?_append_left hj]
  rw [List.length_take_of_le hn]
  exact Nat.le_add_right n j

/-! ### The obligations about the functions -/

/-- Settles O42: the bit step over the numbers, and where its bit 15 comes from. -/
theorem crcBitStep : Obligations.CrcBitStep :=
  ⟨fun c => ⟨crc16Bit_toNat c, crc16Bit_getLsbD_15 c⟩, by decide, by decide, by decide, by decide⟩

/-- Settles O44: the loop of R57 is one byte step per byte, in ascending order. -/
theorem crcFunction : Obligations.CrcFunction :=
  ⟨crc16_zero, fun _ _ _ hb => crc16_succ hb, crc16_example⟩

/-- Settles O45: over the numbers the loop is a sum, and a sum does not see the order of its terms. -/
theorem byteSum : Obligations.ByteSum :=
  ⟨sum8_toNat, fun _ _ _ hperm => sum8_perm hperm, sum8_zero⟩

/-- Settles O46: the complement step is the negation modulo 256. -/
theorem lrcFunction : Obligations.LrcFunction :=
  ⟨fun s => ⟨lrcOfSum_toNat_masked s, lrcOfSum_toNat s⟩, lrcOfSum_zero, by decide, lrcOfSum_example, by decide, by decide,
    fun _ _ => rfl, lrcOf_zero, by rw [lrcOf, sum8_example, lrcOfSum_example]⟩

/-- Settles O47: both functions read the first `n` bytes only. -/
theorem checksumsReadOnlyTheirRange : Obligations.ChecksumsReadOnlyTheirRange := by
  intro bytes other n hagree
  have htake := take_eq_take_of_getElem?_eq hagree
  exact ⟨crc16_congr htake, lrcOf_congr htake⟩

/-- Inverting one bit of a byte gives another byte. -/
theorem flipBit_ne {k : Nat} (hk : k < 8) (b : Byte) : b ^^^ (0x01#8 <<< k) ≠ b := by
  intro h
  have hbit := congrArg (BitVec.getLsbD · k) h
  simp [hk] at hbit

/-- Settles O48: P1 and P3 because a checksum stored after its range is not in the range; P2 because every step of the CRC
loop is injective; P4 because the LRC is the negated sum. -/
theorem sourceProperties : Obligations.SourceProperties := by
  refine ⟨fun bytes n hn => ?crcRoundTrip, fun bytes n i k b hn hi hk hb => ?crcFlippedBit, fun bytes n hn => ?lrcRoundTrip,
    fun bytes n => toNat_add_lrcOfSum_toNat (sum8 bytes n)⟩
  case crcRoundTrip =>
    intro c stored
    have hcrc : crc16 stored n = c := crc16_congr (take_stored hn _ _)
    rw [hcrc]
    exact ⟨getElem?_stored (j := 0) hn (by simp) _, getElem?_stored (j := 1) hn (by simp) _⟩
  case crcFlippedBit =>
    rw [crc16, List.take_set, crc16]
    exact crcFeed_set_ne (by rwa [List.getElem?_take_of_lt hi]) (flipBit_ne hk b) _
  case lrcRoundTrip =>
    intro stored
    have hlrc : lrcOf stored n = lrcOf bytes n := lrcOf_congr (take_stored hn _ _)
    rw [hlrc]
    exact getElem?_stored (j := 0) hn (by simp) _

end Sys2Proof.Machine
end

