-- ==== Sys2Proof/Proofs/RangeCommands.lean ====
section
/-! PROOFS. The six range commands: encoding, faults and effects (40_range_checksum.md R65 to R70). -/

namespace Sys2Proof.Machine

/-! ### Words, faults and effects of any command -/

theorem opcodeNumber_lt {i : Instr} (hwf : i.wf = true) : opcodeNumber i < 2 ^ 32 := by
  have hn16 := i.wf_iff.1 hwf
  have himm8 := i.imm8.isLt
  cases i <;> simp only [opcodeNumber, Instr.n16, Instr.imm8] at * <;> omega

/-- The number R44 writes for a command is a word that decodes to it. -/
theorem decode_opcodeNumber {i : Instr} (hwf : i.wf = true) :
    decode (BitVec.ofNat 32 (opcodeNumber i)) = .command i :=
  (decodeFollowsOpcodeMap _ i).2 ⟨hwf, (BitVec.toNat_ofNat _ _).trans (Nat.mod_eq_of_lt (opcodeNumber_lt hwf))⟩

/-- A command whose fault condition holds is the fault procedure (R101). -/
theorem exec_of_fault {i : Instr} {s : State} {code : Cause} (hfault : commandFault i s = some code) :
    exec i s = .next (s.raiseFault code) := by
  rw [exec_eq, hfault, Option.elim_some]

/-! ### The checksums of a covered range -/

/-- The CRC of a covered range is the loop over all its bytes. -/
theorem crc16_covered (s : State) (n : Nat) : crc16 (s.covered n) n = crcFeed crcInitial (s.covered n) := by
  rw [crc16, s.covered_take le_rfl]

/-- A covered range with two bytes after it has residue 0 exactly when these are its CRC, low byte first (law L5 of R63). -/
theorem crc16_covered_eq_zero_iff {s : State} {n : Nat} :
    crc16 (s.covered (n + 2)) (n + 2) = 0x0000#16 ↔ crc16 (s.covered n) n = s.memRead2 n := by
  rw [crc16_covered, s.covered_succ, s.covered_succ, List.append_assoc, crcFeed_append, ← crc16_covered]
  exact crcFeed_pair_eq_zero_iff

/-- A covered range with one byte after it sums to 0 exactly when that byte is its LRC (law M2 of R64). -/
theorem sum8_covered_eq_zero_iff {s : State} {n : Nat} :
    sum8 (s.covered (n + 1)) (n + 1) = 0x00#8 ↔ lrcOfSum (sum8 (s.covered n) n) = s.memRead1 n := by
  rw [lrcOfSum_eq_iff, sum8, s.covered_take le_rfl, s.covered_succ, sumFeed_append, sum8, s.covered_take le_rfl]
  rfl

theorem sum8_covered_of_sum {s : State} {len : Nat} {v : Byte}
    (hsum : ((s.covered len).map BitVec.toNat).sum % 256 = v.toNat) : sum8 (s.covered len) len = v := by
  apply BitVec.eq_of_toNat_eq
  rw [sum8_toNat, s.covered_take le_rfl, hsum]

/-- A covered range that is written out tells each of its bytes. -/
theorem memRead1_of_covered {s : State} {n i : Nat} {bytes : List Byte} (hcovered : s.covered n = bytes) (hi : i < n) :
    bytes[i]? = some (s.memRead1 i) := by
  simp [← hcovered, State.covered, hi]

/-- A 16-bit value is the two stored bytes exactly when its low byte is the first and its high byte the second (R27). -/
theorem eq_memRead2_iff {s : State} {c : Half} {a : Nat} :
    c = s.memRead2 a ↔ lo8 c = s.memRead1 a ∧ hi8 c = s.memRead1 (a + 1) := by
  constructor
  · rintro rfl
    exact ⟨lo8_ofHiLo _ _, hi8_ofHiLo _ _⟩
  · rintro ⟨hlo, hhi⟩
    rw [State.memRead2, ← hlo, ← hhi, ofHiLo_hi8_lo8]

/-! ### The effect of each range command in its range -/

/-- `CRC16 len` in range (R65). -/
theorem exec_crc16 {len : Nat} {s : State} (hlen : len ≤ s.bufBytes) :
    exec (.crc16 len) s = .next { s with crc := crc16 (s.covered len) len } :=
  exec_of_no_fault (if_neg hlen.not_gt)

/-- `LRC len` in range (R66). -/
theorem exec_lrc {len : Nat} {s : State} (hlen : len ≤ s.bufBytes) :
    exec (.lrc len) s =
      .next { s with sum := sum8 (s.covered len) len, lrc := lrcOfSum (sum8 (s.covered len) len) } :=
  exec_of_no_fault (if_neg hlen.not_gt)

/-- `LRC len` in range, the sum of the covered bytes and its LRC given. -/
theorem exec_lrc_of_sum {len : Nat} {s : State} {v w : Byte} (hlen : len ≤ s.bufBytes)
    (hsum : sum8 (s.covered len) len = v) (hlrc : lrcOfSum v = w) :
    exec (.lrc len) s = .next { s with sum := v, lrc := w } := by
  rw [exec_lrc hlen, hsum, hlrc]

/-- `CRC16.CHK` of a candidate of `n + 2` bytes in range (R69). -/
theorem exec_crc16Chk {n : Nat} {s : State} (hlen : n + 2 ≤ s.bufBytes) :
    exec (.crc16Chk (n + 2)) s = .next { s with
      crc := crc16 (s.covered n) n, matched := crcMatches (crc16 (s.covered n) n) (s.memRead2 n) } :=
  exec_of_no_fault (if_neg hlen.not_gt)

/-- `LRC.CHK` of a candidate of `n + 1` bytes in range (R70). -/
theorem exec_lrcChk {n : Nat} {s : State} (hlen : n + 1 ≤ s.bufBytes) :
    exec (.lrcChk (n + 1)) s = .next { s with
      sum := sum8 (s.covered n) n, lrc := lrcOfSum (sum8 (s.covered n) n),
      matched := lrcMatches (lrcOfSum (sum8 (s.covered n) n)) (s.memRead1 n) } :=
  exec_of_no_fault (if_neg hlen.not_gt)

/-- `LRC.CHK` of a candidate of `n + 1` bytes in range, the sum of the covered bytes and its LRC given. -/
theorem exec_lrcChk_of_sum {n : Nat} {s : State} {v w : Byte} (hlen : n + 1 ≤ s.bufBytes)
    (hsum : sum8 (s.covered n) n = v) (hlrc : lrcOfSum v = w) :
    exec (.lrcChk (n + 1)) s = .next { s with sum := v, lrc := w, matched := lrcMatches w (s.memRead1 n) } := by
  rw [exec_lrcChk hlen, hsum, hlrc]

theorem crcMatches_iff {c d : Half} : crcMatches c d = true ↔ c = d := decide_eq_true_iff

theorem lrcMatches_iff {v w : Byte} : lrcMatches v w = true ↔ v = w := decide_eq_true_iff

/-! ### The obligations -/

/-- Settles O27: in range the command sets `CRC` to the CRC of the covered range, which does not read the old `CRC`. -/
theorem crc16Effect : Obligations.Crc16Effect := by
  refine ⟨fun len hlen => decode_opcodeNumber (i := .crc16 len) (decide_eq_true hlen),
    fun len s hlen => exec_of_fault (if_pos hlen), fun len s old hlen => exec_crc16 (s := { s with crc := old }) hlen,
    fun s => exec_crc16 s.bufBytes.zero_le, fun s hlen hcovered => ?request⟩
  case request => rw [exec_crc16 hlen, hcovered, crc16_example]

/-- Settles O28: in range the command sets `SUM` to the sum of the covered range and `LRC` to its complement. -/
theorem lrcEffect : Obligations.LrcEffect := by
  refine ⟨fun len hlen => decode_opcodeNumber (i := .lrc len) (decide_eq_true hlen),
    fun len s hlen => exec_of_fault (if_pos hlen), fun len s old hlen => exec_lrc (s := { s with sum := old }) hlen,
    fun s => exec_lrc_of_sum s.bufBytes.zero_le (sum8_zero _) lrcOfSum_zero,
    fun len s hlen => ⟨fun hsum => exec_lrc_of_sum hlen (sum8_covered_of_sum hsum) lrcOfSum_zero,
      fun hsum => exec_lrc_of_sum hlen (sum8_covered_of_sum hsum) (by decide)⟩,
    fun s hlen hcovered => exec_lrc_of_sum hlen (by rw [hcovered, sum8_example]) lrcOfSum_example⟩

/-- Settles O29: the two stored bytes are the CRC's, every other byte is outside what the command stores. -/
theorem crc16AppEffect : Obligations.Crc16AppEffect := by
  refine ⟨fun len hlen => decode_opcodeNumber (i := .crc16App len) (decide_eq_true hlen),
    fun len s hlen => exec_of_fault (if_pos hlen), fun len s hlen => ?effect, fun s hlen => ?empty,
    fun s hlen hcovered => ?request⟩
  case effect =>
    refine ⟨_, exec_of_no_fault (commandFault_crc16App_eq_none.2 hlen), rfl, effectOf_crc16App_memRead1_lo len s,
      effectOf_crc16App_memRead1_hi len s, fun a hlo hhi => effectOf_memRead1 ?_ s⟩
    simp [storesAt, hlo, hhi]
  case empty =>
    exact ⟨_, exec_of_no_fault (commandFault_crc16App_eq_none.2 hlen), 
      (effectOf_crc16App_memRead1_lo 0 s).trans lo8_crcInitial, (effectOf_crc16App_memRead1_hi 0 s).trans hi8_crcInitial⟩
  case request =>
    have hcrc : crc16 (s.covered 6) 6 = 0x0BC4#16 := by rw [hcovered, crc16_example]
    have hkept : (effectOf (.crc16App 6) s).covered 6 = s.covered 6 :=
      State.covered_congr fun a ha => effectOf_memRead1 (by simp [storesAt]; omega) s
    refine ⟨_, exec_of_no_fault (commandFault_crc16App_eq_none.2 hlen), hcrc, ?_⟩
    rw [State.covered_succ, State.covered_succ, hkept, hcovered, effectOf_crc16App_memRead1_lo,
      effectOf_crc16App_memRead1_hi, hcrc]
    decide

/-- Settles O30: the stored byte is the LRC, every other byte is outside what the command stores. -/
theorem lrcAppEffect : Obligations.LrcAppEffect := by
  refine ⟨fun len hlen => decode_opcodeNumber (i := .lrcApp len) (decide_eq_true hlen),
    fun len s hlen => exec_of_fault (if_pos hlen), fun len s hlen => ?effect, fun s hlen => ?empty,
    fun s hlen hcovered => ?request⟩
  case effect =>
    refine ⟨_, exec_of_no_fault (commandFault_lrcApp_eq_none.2 hlen), rfl, effectOf_lrcApp_memRead1 len s,
      fun a hne => effectOf_memRead1 ?_ s⟩
    simp [storesAt, hne]
  case empty =>
    exact ⟨_, exec_of_no_fault (commandFault_lrcApp_eq_none.2 hlen), (effectOf_lrcApp_memRead1 0 s).trans (lrcOf_zero _)⟩
  case request =>
    have hsum : sum8 (s.covered 6) 6 = 0x0A#8 := by rw [hcovered, sum8_example]
    have hlrc : lrcOfSum (sum8 (s.covered 6) 6) = 0xF6#8 := by rw [hsum, lrcOfSum_example]
    exact ⟨_, exec_of_no_fault (commandFault_lrcApp_eq_none.2 hlen), hsum, hlrc,
      (effectOf_lrcApp_memRead1 6 s).trans hlrc⟩

/-- Settles O31: `MATCH` compares the recomputed CRC with the stored bytes, which are equal exactly when the residue is 0. -/
theorem crc16ChkEffect : Obligations.Crc16ChkEffect := by
  refine ⟨fun len hlen => decode_opcodeNumber (i := .crc16Chk len) (decide_eq_true hlen), fun len s => ?effect,
    fun len s hlegal => ?oneFault, fun s hlen => ?empty, fun s last hlen hcovered => ?request⟩
  case effect =>
    split
    case isTrue hshort => exact exec_of_fault (if_pos hshort)
    case isFalse hroom =>
      split
      case isTrue hrange => exact exec_of_fault ((if_neg hroom).trans (if_pos hrange))
      case isFalse hlen =>
        obtain ⟨n, rfl⟩ := Nat.exists_eq_add_of_le' (not_lt.1 hroom)
        exact ⟨_, exec_crc16Chk (not_lt.1 hlen), crcMatches_iff, crcMatches_iff.trans eq_memRead2_iff,
          crcMatches_iff.trans crc16_covered_eq_zero_iff.symm⟩
  case oneFault =>
    rintro ⟨hshort, hrange⟩
    exact (hlegal.1.trans_lt hrange).not_gt (hshort.trans (by decide))
  case empty =>
    refine ⟨_, exec_crc16Chk hlen, ?_⟩
    rw [crcMatches_iff, eq_memRead2_iff]
    change lo8 crcInitial = s.memRead1 0 ∧ hi8 crcInitial = s.memRead1 1 ↔ _
    rw [lo8_crcInitial, hi8_crcInitial]
    exact and_congr eq_comm eq_comm
  case request =>
    have hcrc : crc16 (s.covered 6) 6 = 0x0BC4#16 := by
      rw [← s.covered_take (show 6 ≤ 8 by decide), hcovered]
      exact crc16_example
    have hlo : 0xC4#8 = s.memRead1 6 := Option.some.inj (memRead1_of_covered (i := 6) hcovered (by decide))
    have hhi : last = s.memRead1 7 := Option.some.inj (memRead1_of_covered (i := 7) hcovered (by decide))
    have hexec : exec (.crc16Chk 8) s = .next { s with
        crc := 0x0BC4#16, matched := crcMatches 0x0BC4#16 (ofHiLo last 0xC4#8) } := by
      rw [exec_crc16Chk hlen, hcrc, State.memRead2, ← hlo, ← hhi]
    constructor <;> rintro rfl <;> exact hexec

/-- Settles O32: `MATCH` compares the recomputed LRC with the stored byte, which are equal exactly when the whole sum is 0. -/
theorem lrcChkEffect : Obligations.LrcChkEffect := by
  refine ⟨fun len hlen => decode_opcodeNumber (i := .lrcChk len) (decide_eq_true hlen), fun len s => ?effect,
    fun s hlen => ?empty, fun s last hlen hcovered => ?request⟩
  case effect =>
    split
    case isTrue hshort => exact exec_of_fault (if_pos hshort)
    case isFalse hroom =>
      split
      case isTrue hrange => exact exec_of_fault ((if_neg hroom).trans (if_pos hrange))
      case isFalse hlen =>
        obtain ⟨n, rfl⟩ := Nat.exists_eq_add_of_le' (not_lt.1 hroom)
        exact ⟨_, exec_lrcChk (not_lt.1 hlen), lrcMatches_iff, lrcMatches_iff.trans sum8_covered_eq_zero_iff.symm⟩
  case empty =>
    exact ⟨_, exec_lrcChk_of_sum hlen (sum8_zero _) lrcOfSum_zero, lrcMatches_iff.trans eq_comm⟩
  case request =>
    have hsum : sum8 (s.covered 6) 6 = 0x0A#8 := by
      rw [← s.covered_take (show 6 ≤ 7 by decide), hcovered]
      exact sum8_example
    have hlast : last = s.memRead1 6 := Option.some.inj (memRead1_of_covered (i := 6) hcovered (by decide))
    have hexec : exec (.lrcChk 7) s = .next { s with
        sum := 0x0A#8, lrc := 0xF6#8, matched := lrcMatches 0xF6#8 last } := by
      rw [exec_lrcChk_of_sum hlen hsum lrcOfSum_example, ← hlast]
    constructor <;> rintro rfl <;> exact hexec

end Sys2Proof.Machine
end

