-- ==== Sys2Proof/Proofs/Streaming.lean ====
section
/-! PROOFS. The five streaming commands: encoding, malformed words and effects (41_streaming.md R80 to R84). -/

namespace Sys2Proof.Machine

/-! ### Malformed words -/

/-- Of the words with the `op` of a form Z command only the command's own is legal (R42, R46). -/
theorem decode_formZ_of_ne {w : Word} {op : Nat} (hform : op ∈ [0x00, 0x10, 0x12, 0x14, 0x30])
    (hop : w.toNat / 0x1000000 = op) (hne : w ≠ BitVec.ofNat 32 (op * 0x1000000)) :
    decode w = .illegal .mustBeZero := by
  have hopField : opField w = op := (opField_eq w).trans hop
  have hbits : imm8Field w ≠ 0 ∨ n16Field w ≠ 0 := by
    have hnumber : w.toNat ≠ op * 0x1000000 := fun h => hne (by rw [← h, BitVec.ofNat_toNat, BitVec.setWidth_eq])
    rw [ne_eq (imm8Field w), imm8Field_eq_zero, n16Field_eq]
    omega
  exact decode_mustBeZero (.inl ⟨by simpa [hopField] using hform, hbits⟩)

/-- A word with the `op` of a form I command and a bit set in `n16` is illegal (R42, R46). -/
theorem decode_formI_of_n16_ne_zero {w : Word} (hop : w.toNat / 0x1000000 = 0x11 ∨ w.toNat / 0x1000000 = 0x13)
    (hn16 : w.toNat % 0x10000 ≠ 0) : decode w = .illegal .mustBeZero := by
  rw [← opField_eq] at hop
  rw [← n16Field_eq] at hn16
  exact decode_mustBeZero (.inr (.inr ⟨hop, hn16⟩))

/-! ### The byte step and the complement step -/

/-- The CRC of some bytes and one more is one more byte step (R57, law L3 of R63). -/
theorem crc16_take_concat (bytes : List Byte) (n : Nat) (b : Byte) :
    crc16 (bytes.take n ++ [b]) (n + 1) = crc16Byte (crc16 bytes n) b := by
  rw [crc16, List.take_of_length_le (by simp), crcFeed_append]
  rfl

theorem crc16Bits_eq_iterate (k : Nat) (c : Half) : crc16Bits k c = crc16Bit^[k] c := by
  induction k generalizing c with
  | zero => rfl
  | succ k ih => exact ih (crc16Bit c)

/-- The byte step of a zero byte is eight bit steps (R81). -/
theorem crc16Byte_zero (c : Half) : crc16Byte c 0x00#8 = crc16Bit^[8] c := by
  rw [crc16Byte, BitVec.setWidth_zero, BitVec.xor_zero, crc16Bits_eq_iterate]

/-- The complement step in the terms of R59, as a byte. -/
theorem lrcOfSum_eq_ofNat (v : Byte) : lrcOfSum v = BitVec.ofNat 8 (((v.toNat ^^^ 0xFF) + 1) &&& 0xFF) := by
  rw [← lrcOfSum_toNat_masked, BitVec.ofNat_toNat, BitVec.setWidth_eq]

/-! ### The effect of each streaming command: none has a fault condition -/

/-- `CRC.INIT` (R80). -/
theorem exec_crcInit (s : State) : exec .crcInit s = .next { s with crc := 0xFFFF#16 } := exec_of_no_fault rfl

/-- `CRC.UPD b` (R81). -/
theorem exec_crcUpd (b : Byte) (s : State) : exec (.crcUpd b) s = .next { s with crc := crc16Byte s.crc b } :=
  exec_of_no_fault rfl

/-- `LRC.INIT` (R82). -/
theorem exec_lrcInit (s : State) : exec .lrcInit s = .next { s with sum := 0x00#8 } := exec_of_no_fault rfl

/-- `LRC.UPD b` (R83). -/
theorem exec_lrcUpd (b : Byte) (s : State) : exec (.lrcUpd b) s = .next { s with sum := s.sum + b } :=
  exec_of_no_fault rfl

/-- `LRC.FIN` (R84). -/
theorem exec_lrcFin (s : State) : exec .lrcFin s = .next { s with lrc := lrcOfSum s.sum } := exec_of_no_fault rfl

/-- `CRC.UPD b` from a given `CRC`, the byte step given. -/
theorem exec_crcUpd_of_crc {b : Byte} {s : State} {c d : Half} (hcrc : s.crc = c) (hstep : crc16Byte c b = d) :
    exec (.crcUpd b) s = .next { s with crc := d } := by
  rw [exec_crcUpd, hcrc, hstep]

/-- `LRC.UPD b` from a given `SUM`, the byte addition given. -/
theorem exec_lrcUpd_of_sum {b : Byte} {s : State} {v w : Byte} (hsum : s.sum = v) (hadd : v + b = w) :
    exec (.lrcUpd b) s = .next { s with sum := w } := by
  rw [exec_lrcUpd, hsum, hadd]

/-- `LRC.FIN` from a given `SUM`, its LRC given. -/
theorem exec_lrcFin_of_sum {s : State} {v w : Byte} (hsum : s.sum = v) (hlrc : lrcOfSum v = w) :
    exec .lrcFin s = .next { s with lrc := w } := by
  rw [exec_lrcFin, hsum, hlrc]

/-- Two commands in a row: the second goes on from the state the first answers. -/
theorem execAll_pair {i j : Instr} {s t : State} (hexec : exec i s = .next t) : execAll [i, j] s = exec j t := by
  simp only [execAll, hexec, exec_eq j t]

/-- A command that changes nothing in the state it answers does the same twice as once. -/
theorem execAll_twice {i : Instr} {s t : State} (hexec : exec i s = .next t) (hagain : exec i t = .next t) :
    execAll [i, i] s = exec i s :=
  (execAll_pair hexec).trans (hagain.trans hexec.symm)

/-! ### The obligations -/

/-- Settles O34: the command is one byte step, which is what the CRC loop does with one more byte. -/
theorem crcUpdEffect : Obligations.CrcUpdEffect := by
  refine ⟨fun b => decode_opcodeNumber (i := .crcUpd b) rfl,
    fun w hop hn16 => decode_formI_of_n16_ne_zero (.inl hop) hn16, exec_crcUpd,
    fun b s bytes n _ hcrc => exec_crcUpd_of_crc hcrc (crc16_take_concat bytes n b).symm,
    fun s => exec_crcUpd_of_crc rfl (crc16Byte_zero s.crc), fun s hcrc => exec_crcUpd_of_crc hcrc (by decide),
    fun s hcrc => ?request⟩
  case request =>
    have hfirst : exec (.crcUpd 0x01#8) s = .next { s with crc := 0x807E#16 } :=
      exec_crcUpd_of_crc hcrc (by decide)
    exact ⟨hfirst, (execAll_pair hfirst).trans (exec_crcUpd_of_crc (c := 0x807E#16) rfl (by decide))⟩

/-- Settles O33: the start value is set whatever `CRC` held, and it is the value after Reset. -/
theorem crcInitEffect : Obligations.CrcInitEffect :=
  ⟨decode_opcodeNumber (i := .crcInit) rfl, fun _ hop hne => decode_formZ_of_ne (by decide) hop hne,
    fun s old => exec_crcInit { s with crc := old },
    fun s => execAll_twice (exec_crcInit s) (exec_crcInit _),
    fun cfg k inputs => exec_crcInit (State.afterReset cfg k inputs)⟩

/-- Settles O35: 0 is set whatever `SUM` held, and it is the value after Reset. -/
theorem lrcInitEffect : Obligations.LrcInitEffect :=
  ⟨decode_opcodeNumber (i := .lrcInit) rfl, fun _ hop hne => decode_formZ_of_ne (by decide) hop hne,
    fun s old => exec_lrcInit { s with sum := old },
    fun s => execAll_twice (exec_lrcInit s) (exec_lrcInit _),
    fun cfg k inputs => exec_lrcInit (State.afterReset cfg k inputs)⟩

/-- Settles O36: byte addition is addition modulo 256 over the numbers, so the carry is dropped. -/
theorem lrcUpdEffect : Obligations.LrcUpdEffect := by
  refine ⟨fun b => decode_opcodeNumber (i := .lrcUpd b) rfl, fun b s => exec_lrcUpd_of_sum rfl ?modulo,
    fun s => exec_lrcUpd_of_sum rfl (BitVec.add_zero s.sum),
    fun s hsum => ⟨exec_lrcUpd_of_sum hsum (by decide), exec_lrcUpd_of_sum hsum (by decide)⟩,
    fun s hsum => exec_lrcUpd_of_sum hsum (by decide)⟩
  case modulo =>
    apply BitVec.eq_of_toNat_eq
    rw [BitVec.toNat_add, BitVec.toNat_ofNat, Nat.mod_mod]

/-- Settles O37: `LRC` is set to the complement of `SUM`, which the command neither writes nor takes from `LRC`. -/
theorem lrcFinEffect : Obligations.LrcFinEffect :=
  ⟨decode_opcodeNumber (i := .lrcFin) rfl,
    fun s old => exec_lrcFin_of_sum (s := { s with lrc := old }) rfl (lrcOfSum_eq_ofNat s.sum),
    fun s => execAll_twice (exec_lrcFin s) (exec_lrcFin _),
    fun _ hsum => exec_lrcFin_of_sum hsum lrcOfSum_zero, fun _ hsum => exec_lrcFin_of_sum hsum (by decide),
    fun _ hsum => exec_lrcFin_of_sum hsum lrcOfSum_example⟩

end Sys2Proof.Machine
end

