-- ==== Sys2Proof/Proofs/BufferHousekeeping.lean ====
section
/-! PROOFS. Buffer access and housekeeping: encoding, faults and effects (42_buffer_housekeeping.md R90 to R93). -/

namespace Sys2Proof.Machine

/-! ### The effect of each command -/

/-- `STB addr, b` in range (R91). -/
theorem exec_stb {addr : Nat} {b : Byte} {s : State} (haddr : addr < s.bufBytes) :
    exec (.stb addr b) s = .next (s.memWrite1 addr b) :=
  exec_of_no_fault (if_neg haddr.not_ge)

/-- A byte that is stored is what a read at its address answers. -/
theorem State.memWrite1_memRead1_same (s : State) (addr : Nat) (b : Byte) : (s.memWrite1 addr b).memRead1 addr = b := by
  rw [State.memWrite1_memRead1, if_pos rfl]

/-- `LDB addr` in range (R92). -/
theorem exec_ldb {addr : Nat} {s : State} (haddr : addr < s.bufBytes) :
    exec (.ldb addr) s = .next { s with dout := s.memRead1 addr } :=
  exec_of_no_fault (if_neg haddr.not_ge)

/-- A byte not written since Reset reads as its free value (R20, R92). -/
theorem State.memRead1_of_unlisted {s : State} {addr : Nat} (hunlisted : Memory.lookup s.buf addr = none) :
    s.memRead1 addr = Config.resetByte s.resets addr := by
  rw [State.memRead1, hunlisted, Option.getD_none]

/-- A word with the `op` of `LDB` and a bit set in `imm8` is illegal (R42, R46). -/
theorem decode_ldb_of_imm8_ne_zero {w : Word} (hop : w.toNat / 0x1000000 = 0x21)
    (himm8 : w.toNat / 0x10000 % 0x100 ≠ 0) : decode w = .illegal .mustBeZero := by
  rw [← opField_eq] at hop
  rw [ne_eq, ← imm8Field_eq_zero] at himm8
  exact decode_mustBeZero (.inr (.inl ⟨.inr hop, himm8⟩))

/-- `CLRE` (R93). -/
theorem exec_clre (s : State) : exec .clre s = .next s.clearFault := exec_of_no_fault rfl

/-- With `ERR` 0 the invariant has `CAUSE` 0 too, so there is nothing to clear. -/
theorem State.clearFault_eq_self {s : State} (hinv : s.Inv) (herr : s.err = false) : s.clearFault = s := by
  obtain ⟨-, -, -, hcause⟩ := hinv
  rw [State.clearFault, ← hcause.1 herr, ← herr]

/-- Clearing `ERR` and `CAUSE` leaves bit 0 of `STATUS`, `MATCH`, and no other bit (R15). -/
theorem State.clearFault_status (s : State) : s.clearFault.status = s.status &&& 0x01#8 := by
  simp only [State.status, State.clearFault_cause, State.clearFault_err, State.clearFault_matched]
  cases s.matched <;> cases s.err <;> cases s.cause <;> rfl

/-- `CLRE` from a given `STATUS`. -/
theorem exec_clre_of_status {s : State} {v w : Byte} (hstatus : s.status = v) (hmatch : v &&& 0x01#8 = w) :
    ∃ t, exec .clre s = .next t ∧ t.status = w :=
  ⟨_, exec_clre s, by rw [State.clearFault_status, hstatus, hmatch]⟩

/-- The effect of a command other than `CLRE` leaves `ERR`. -/
theorem effectOf_err {i : Instr} (hne : i ≠ .clre) (s : State) : (effectOf i s).err = s.err := by
  cases i with
  | clre => exact absurd rfl hne
  | _ => rfl

/-- `ERR` is sticky: a command other than `CLRE`, faulting or not, leaves it set (R15). -/
theorem exec_err_of_ne_clre {i : Instr} {s t : State} (hexec : exec i s = .next t) (hne : i ≠ .clre)
    (herr : s.err = true) : t.err = true := by
  rw [exec_eq, Host.Outcome.next.injEq] at hexec
  subst hexec
  cases commandFault i s with
  | none => exact (effectOf_err hne s).trans herr
  | some code => exact s.raiseFault_err code

/-! ### The obligations -/

/-- Settles O39: the command is one byte store, which a read sees at its own address and nowhere else. -/
theorem stbEffect : Obligations.StbEffect := by
  refine ⟨fun b addr haddr => decode_opcodeNumber (i := .stb addr b) (decide_eq_true haddr),
    fun addr b s haddr => exec_of_fault (if_pos haddr), fun addr b s haddr => ?effect,
    decode_opcodeNumber (i := .stb 2 0xFF#8) rfl, fun s hsize => ⟨_, exec_stb hsize, s.memWrite1_memRead1_same _ _⟩⟩
  case effect =>
    refine ⟨_, exec_stb haddr, rfl, s.memWrite1_memRead1_same addr b, fun a hne => ?_⟩
    rw [State.memWrite1_memRead1, if_neg hne]

/-- Settles O40: `DOUT` is the byte read, which after `CRC16.APP 6` is a byte of the CRC that it stored. -/
theorem ldbEffect : Obligations.LdbEffect := by
  refine ⟨fun addr haddr => decode_opcodeNumber (i := .ldb addr) (decide_eq_true haddr),
    fun w hop himm8 => decode_ldb_of_imm8_ne_zero hop himm8, fun addr s haddr => exec_of_fault (if_pos haddr),
    fun addr s haddr => exec_ldb haddr, fun addr s haddr hunlisted => ?unlisted, fun s hsize hcovered => ?request⟩
  case unlisted => rw [exec_ldb haddr, State.memRead1_of_unlisted hunlisted]
  case request =>
    have hcrc : crc16 (s.covered 6) 6 = 0x0BC4#16 := by rw [hcovered, crc16_example]
    have happend := exec_of_no_fault (commandFault_crc16App_eq_none.2 hsize)
    refine ⟨_, _, (execAll_pair happend).trans (exec_ldb (Nat.lt_of_lt_of_le (by decide) hsize)), ?lo,
      exec_ldb (Nat.lt_of_lt_of_le (by decide) hsize), ?hi⟩
    case lo =>
      change (effectOf (.crc16App 6) s).memRead1 6 = 0xC4#8
      rw [effectOf_crc16App_memRead1_lo, hcrc]
      decide
    case hi =>
      change (effectOf (.crc16App 6) s).memRead1 7 = 0x0B#8
      rw [effectOf_crc16App_memRead1_hi, hcrc]
      decide

/-- Settles O41: the effect is the return from a fault; no other command clears `ERR`, since `ERR` is sticky. -/
theorem clreEffect : Obligations.ClreEffect := by
  refine ⟨decode_opcodeNumber (i := .clre) rfl,
    fun w s rest hop hne hinputs => step_of_illegal hinputs (decode_formZ_of_ne (by decide) hop hne), exec_clre,
    fun s hinv herr => (exec_clre s).trans (congrArg _ (State.clearFault_eq_self hinv herr)),
    fun i s t hexec herr hcleared => ?onlyClre, fun s hstatus => exec_clre_of_status hstatus (by decide),
    fun s hstatus => exec_clre_of_status hstatus (by decide)⟩
  case onlyClre =>
    by_contra hne
    exact absurd (exec_err_of_ne_clre hexec hne herr) (by simp [hcleared])

/-- Settles O38: the one legal word of the `op` is the command's, and its effect is the state it found. -/
theorem nopEffect : Obligations.NopEffect :=
  ⟨decode_opcodeNumber (i := .nop) rfl, fun _ hop hne => decode_formZ_of_ne (by decide) hop hne,
    fun _ => exec_of_no_fault rfl⟩

end Sys2Proof.Machine
end

