-- ==== Sys2Proof/Proofs/Exceptions.lean ====
section
/-! PROOFS. The fault procedure, and `STATUS` as no input of any command (60_exceptions.md R101, R104). -/

namespace Sys2Proof.Machine

/-! ### The fault procedure -/

/-- The fault procedure in the terms of R101: the cause is written only where `ERR` was 0. -/
theorem State.raiseFault_eq (s : State) (code : Cause) :
    s.raiseFault code = { s with err := true, cause := if s.err = false then code else s.cause } := by
  rw [State.raiseFault]
  cases s.err <;> rfl

/-! ### `STATUS` is no input -/

/-- The state with other values of `MATCH`, `ERR` and `CAUSE`. -/
def State.withStatus (s : State) (m e : Bool) (c : Cause) : State := { s with matched := m, err := e, cause := c }

/-- Fault conditions read the operands and `BUF_BYTES` only (R102). -/
theorem commandFault_withStatus (i : Instr) (s : State) (m e : Bool) (c : Cause) :
    commandFault i (s.withStatus m e c) = commandFault i s := by
  cases i <;> rfl

/-- What a command's effect writes outside `STATUS` does not depend on `STATUS` (R104). -/
theorem effectOf_withStatus (i : Instr) (s : State) (m e : Bool) (c : Cause) :
    effectOf i (s.withStatus m e c) =
      (effectOf i s).withStatus (effectOf i (s.withStatus m e c)).matched (effectOf i (s.withStatus m e c)).err
        (effectOf i (s.withStatus m e c)).cause := by
  cases i <;> rfl

/-- The `MATCH` that a `.CHK` command writes does not depend on `STATUS` (R69, R70). -/
theorem effectOf_matched_withStatus_of_chk {i : Instr} {len : Nat} (hchk : i = .crc16Chk len ∨ i = .lrcChk len)
    (s : State) (m e : Bool) (c : Cause) : (effectOf i (s.withStatus m e c)).matched = (effectOf i s).matched := by
  obtain rfl | rfl := hchk <;> rfl

/-- Only the `.CHK` commands write `MATCH` (R15). -/
theorem effectOf_matched {i : Instr} (hne : ∀ len, i ≠ .crc16Chk len ∧ i ≠ .lrcChk len) (s : State) :
    (effectOf i s).matched = s.matched := by
  cases i with
  | crc16Chk len => exact absurd rfl (hne len).1
  | lrcChk len => exact absurd rfl (hne len).2
  | _ => rfl

/-- The effect of a command other than `CLRE` leaves `CAUSE`. -/
theorem effectOf_cause {i : Instr} (hne : i ≠ .clre) (s : State) : (effectOf i s).cause = s.cause := by
  cases i with
  | clre => exact absurd rfl hne
  | _ => rfl

/-! ### The obligations -/

/-- Settles O15: a command whose fault condition holds runs the fault procedure and nothing else. -/
theorem faultProcedure : Obligations.FaultProcedure :=
  ⟨State.raiseFault_eq, fun _ s code hfault => (exec_of_fault hfault).trans (congrArg _ (s.raiseFault_eq code))⟩

/-- Settles O18: fault conditions do not read `STATUS`, so both states take the same fault or have the same effect. -/
theorem statusIsNoInput : Obligations.StatusIsNoInput := by
  intro i s m e c
  have hsame : commandFault i (s.withStatus m e c) = commandFault i s := commandFault_withStatus i s m e c
  refine ⟨hsame, ?_⟩
  cases hfault : commandFault i s with
  | none =>
    refine ⟨_, _, exec_of_no_fault hfault, exec_of_no_fault (hsame.trans hfault), effectOf_withStatus i s m e c,
      fun _ => ⟨fun _ hchk => effectOf_matched_withStatus_of_chk hchk s m e c, fun hne => effectOf_matched hne _,
        ?clre, fun hne => ⟨effectOf_err hne _, effectOf_cause hne _⟩⟩, nofun⟩
    case clre =>
      rintro rfl
      exact ⟨rfl, rfl⟩
  | some code =>
    refine ⟨_, _, exec_of_fault hfault, exec_of_fault (hsame.trans hfault), rfl, nofun, ?_⟩
    rintro _ ⟨⟩
    exact ⟨rfl, rfl, rfl⟩

end Sys2Proof.Machine
end

