-- ==== Sys2Proof/Proofs/RoundTrip.lean ====
section
/-! PROOFS. The encoder and the decoder undo each other (30_encoding.md R44, R49). -/

namespace Sys2Proof

/-- A command's word is made of the three fields of its row of the opcode map (R41, R44). -/
theorem encode_eq_packWord (i : Instr) : encode i = packWord i.opcode i.imm8 i.n16 := by
  cases i <;> rfl

theorem Instr.opcode_lt (i : Instr) : i.opcode < 256 := by
  cases i <;> simp [Instr.opcode]

/-- The three fields of a packed word are those it was packed from (R41). -/
theorem fields_packWord {op n16 : Nat} (imm8 : Byte) (hop : op < 256) (hn16 : n16 < 0x10000) :
    opField (packWord op imm8 n16) = op ∧ imm8Field (packWord op imm8 n16) = imm8 ∧
      n16Field (packWord op imm8 n16) = n16 := by
  have himm8 := imm8.isLt
  rw [opField_eq, BitVec.toNat_eq, imm8Field_toNat, n16Field_eq, packWord_toNat imm8 hop hn16]
  omega

/-- Settles O1: the fields of a command's word are the command's, which is what the decoder asks of a word. -/
theorem decodeOfEncode : Obligations.DecodeOfEncode := by
  intro i hwf
  rw [decode_eq_command_iff, encode_eq_packWord]
  exact fields_packWord i.imm8 i.opcode_lt (i.wf_iff.1 hwf)

/-- Settles O2: a legal word and the word of its command are the same number, the command's row of the opcode map. -/
theorem encodeOfDecode : Obligations.EncodeOfDecode := by
  intro w i hdecode
  obtain ⟨hwf, hw⟩ := (decodeFollowsOpcodeMap w i).1 hdecode
  obtain ⟨-, hencode⟩ := (decodeFollowsOpcodeMap (encode i) i).1 (decodeOfEncode i hwf)
  exact ⟨hwf, BitVec.eq_of_toNat_eq (hencode.trans hw.symm)⟩

/-- Settles O6: each of the seven words is the number R44 writes for its command. -/
theorem sampleWordsDecode : Obligations.SampleWordsDecode :=
  ⟨Machine.decode_opcodeNumber (i := .crcInit) rfl, Machine.decode_opcodeNumber (i := .crc16App 6) rfl,
    Machine.decode_opcodeNumber (i := .lrcUpd 0x0A#8) rfl, Machine.decode_opcodeNumber (i := .stb 2 0xFF#8) rfl,
    Machine.decode_opcodeNumber (i := .ldb 7) rfl, Machine.decode_opcodeNumber (i := .clre) rfl,
    Machine.decode_opcodeNumber (i := .crc16Chk 16) rfl⟩

end Sys2Proof
end

