-- ==== Sys2Proof/Proofs/WriteTable.lean ====
section
/-! PROOFS. What a command writes and what it leaves, column by column (10_state.md R15, R19; 60_exceptions.md R102). -/

namespace Sys2Proof.Machine

/-! ### What executing a command can do -/

/-- A command takes the fault its fault condition names, or has its effect. -/
theorem exec_cases {i : Instr} {s t : State} (hexec : exec i s = .next t) :
    (commandFault i s = none ∧ t = effectOf i s) ∨ ∃ code, commandFault i s = some code ∧ t = s.raiseFault code := by
  rw [exec_eq, Host.Outcome.next.injEq] at hexec
  subst hexec
  cases commandFault i s with
  | none => exact .inl ⟨rfl, rfl⟩
  | some code => exact .inr ⟨code, rfl, rfl⟩

/-- Every command but the five that write `CRC` leaves it (R19). -/
theorem effectOf_crc {i : Instr}
    (hne : ∀ b len, i ≠ .crcInit ∧ i ≠ .crcUpd b ∧ i ≠ .crc16 len ∧ i ≠ .crc16App len ∧ i ≠ .crc16Chk len) (s : State) :
    (effectOf i s).crc = s.crc := by
  cases i with
  | crcInit | crcUpd | crc16 | crc16App | crc16Chk => simp at hne
  | _ => rfl

/-- Every command but the five that write `SUM` leaves it (R19). -/
theorem effectOf_sum {i : Instr}
    (hne : ∀ b len, i ≠ .lrcInit ∧ i ≠ .lrcUpd b ∧ i ≠ .lrc len ∧ i ≠ .lrcApp len ∧ i ≠ .lrcChk len) (s : State) :
    (effectOf i s).sum = s.sum := by
  cases i with
  | lrcInit | lrcUpd | lrc | lrcApp | lrcChk => simp at hne
  | _ => rfl

/-- Every command but the four that write `LRC` leaves it (R19). -/
theorem effectOf_lrc {i : Instr} (hne : ∀ len, i ≠ .lrcFin ∧ i ≠ .lrc len ∧ i ≠ .lrcApp len ∧ i ≠ .lrcChk len)
    (s : State) : (effectOf i s).lrc = s.lrc := by
  cases i with
  | lrcFin | lrc | lrcApp | lrcChk => simp at hne
  | _ => rfl

/-- Every command but `LDB` leaves `DOUT` (R19). -/
theorem effectOf_dout {i : Instr} (hne : ∀ addr, i ≠ .ldb addr) (s : State) : (effectOf i s).dout = s.dout := by
  cases i with
  | ldb => simp at hne
  | _ => rfl

@[simp] theorem effectOf_config (i : Instr) (s : State) : (effectOf i s).config = s.config := by cases i <;> rfl

@[simp] theorem effectOf_resets (i : Instr) (s : State) : (effectOf i s).resets = s.resets := by cases i <;> rfl

@[simp] theorem effectOf_inputs (i : Instr) (s : State) : (effectOf i s).inputs = s.inputs := by cases i <;> rfl

/-- No command changes the parameter. -/
theorem exec_config {i : Instr} {s t : State} (hexec : exec i s = .next t) : t.config = s.config := by
  obtain ⟨-, rfl⟩ | ⟨code, -, rfl⟩ := exec_cases hexec
  · exact effectOf_config i s
  · exact s.raiseFault_config code

/-- No command takes anything of what the host has still to present. -/
theorem exec_inputs {i : Instr} {s t : State} (hexec : exec i s = .next t) : t.inputs = s.inputs := by
  obtain ⟨-, rfl⟩ | ⟨code, -, rfl⟩ := exec_cases hexec
  · exact effectOf_inputs i s
  · exact s.raiseFault_inputs code

/-- A command other than `CLRE` that finds `ERR` set leaves `CAUSE` as it was: the first cause is kept (R101). -/
theorem exec_cause_of_ne_clre {i : Instr} {s t : State} (hexec : exec i s = .next t) (hne : i ≠ .clre)
    (herr : s.err = true) : t.cause = s.cause := by
  obtain ⟨-, rfl⟩ | ⟨code, -, rfl⟩ := exec_cases hexec
  · exact effectOf_cause hne s
  · rw [State.raiseFault_cause, if_pos herr]

/-- A command other than `CLRE` answers `ERR` 0 exactly when it found it so and took no fault. -/
theorem exec_err_eq_false_iff {i : Instr} {s t : State} (hexec : exec i s = .next t) (hne : i ≠ .clre) :
    t.err = false ↔ s.err = false ∧ commandFault i s = none := by
  obtain ⟨hclean, rfl⟩ | ⟨code, hfault, rfl⟩ := exec_cases hexec
  · rw [effectOf_err hne, hclean, and_iff_left rfl]
  · simp [hfault]

/-! ### The obligations -/

/-- Settles O16: without a fault the command has its effect, which writes neither `ERR` nor `CAUSE` unless it is `CLRE`'s. -/
theorem faultTableIsComplete : Obligations.FaultTableIsComplete := by
  intro i s hclean
  refine ⟨_, exec_of_no_fault hclean, ?clre, fun hne => ⟨effectOf_err hne s, effectOf_cause hne s⟩⟩
  case clre =>
    rintro rfl
    exact ⟨s.clearFault_err, s.clearFault_cause⟩

/-- Settles O23: a fault writes `ERR` and `CAUSE` alone; without one each column of the table is the frame of the effect. -/
theorem commandsWriteOnlyTheirRegisters : Obligations.CommandsWriteOnlyTheirRegisters := by
  intro i s
  cases hfault : commandFault i s with
  | some code =>
    exact ⟨_, exec_of_fault hfault, fun _ => rfl, fun _ => rfl, fun _ => rfl, fun _ => rfl, fun _ => rfl, nofun,
      fun _ => rfl, fun _ _ => rfl, rfl, rfl, rfl⟩
  | none =>
    exact ⟨_, exec_of_no_fault hfault, fun hne => effectOf_crc hne s, fun hne => effectOf_sum hne s,
      fun hne => effectOf_lrc hne s, fun hne => effectOf_dout hne s, fun hne => effectOf_matched hne s,
      fun _ hne => ⟨effectOf_err hne s, effectOf_cause hne s⟩, fun hstores => effectOf_buf hstores s,
      fun _ ha => effectOf_memRead1 ha s, effectOf_config i s, effectOf_resets i s, effectOf_inputs i s⟩

/-- Settles O22, by induction on the commands: `ERR` after the first tells whether it was set or the first was refused. -/
theorem errTellsWhetherRunWasClean : Obligations.ErrTellsWhetherRunWasClean := by
  intro is s hne
  induction is generalizing s with
  | nil => exact ⟨s, rfl, by simp [faultFree]⟩
  | cons i rest ih =>
    obtain ⟨hi, hrest⟩ := List.forall_mem_cons.1 hne
    obtain ⟨u, hexec⟩ := exec_next i s
    obtain ⟨t, hrun, herr⟩ := ih u hrest
    refine ⟨t, by simpa only [execAll, hexec] using hrun, ?_⟩
    rw [herr, exec_err_eq_false_iff hexec hi]
    simp [faultFree, hexec, and_assoc]

/-- Settles O26: none of the seven commands faults, and the effect of each neither reads nor writes `buf`. -/
theorem streamingIgnoresBuffer : Obligations.StreamingIgnoresBuffer := by
  intro b s m k i hi
  simp only [List.mem_cons, List.not_mem_nil, or_false] at hi
  obtain rfl | rfl | rfl | rfl | rfl | rfl | rfl := hi <;>
    exact ⟨_, exec_of_no_fault rfl, effectOf_buf rfl s, exec_of_no_fault rfl⟩

end Sys2Proof.Machine
end

