-- ==== Sys2Proof/Proofs/Steps.lean ====
section
/-! PROOFS. What a step can do, and what every step and every run keeps (10_state.md R15 to R17, R20; 70_reset_and_hazards.md). -/

namespace Sys2Proof.Machine

/-! ### What a step can do -/

/-- A step with nothing presented (log entry 4). -/
theorem step_of_nothing {s : State} (hinputs : s.inputs = []) : step s = .next s := by
  simp only [step, hinputs]

/-- A step that takes a Reset (R116). -/
theorem step_of_reset {s : State} {rest : List HostInput} (hinputs : s.inputs = .reset :: rest) :
    step s = .next (s.setInputs rest).takeReset := by
  simp only [step, hinputs]

/-- A step that takes a legal word executes its command, the word consumed (R16, R49). -/
theorem step_of_command {s : State} {w : Word} {rest : List HostInput} {i : Instr}
    (hinputs : s.inputs = .command w :: rest) (hdecode : decode w = .command i) :
    step s = exec i (s.setInputs rest) := by
  simp only [step, hinputs, hdecode]

/-- All that a step can do: nothing, a Reset, a command's execution, or the fault `ILLEGAL`. -/
inductive StepCase (s t : State) : Prop
  /-- Nothing was presented. -/
  | nothing (hinputs : s.inputs = []) (hnext : t = s)
  /-- A Reset was taken. -/
  | reset (rest : List HostInput) (hinputs : s.inputs = .reset :: rest) (hnext : t = (s.setInputs rest).takeReset)
  /-- A legal word was taken and its command executed. -/
  | command (w : Word) (rest : List HostInput) (i : Instr) (hinputs : s.inputs = .command w :: rest)
      (hdecode : decode w = .command i) (hexec : exec i (s.setInputs rest) = .next t)
  /-- A word that is no command was taken. -/
  | illegal (w : Word) (rest : List HostInput) (hinputs : s.inputs = .command w :: rest)
      (hnext : t = (s.setInputs rest).raiseFault .illegal)

/-- Every step answers a next state, in one of the four ways. -/
theorem exists_stepCase (s : State) : ∃ t, step s = .next t ∧ StepCase s t := by
  rcases hinputs : s.inputs with _ | ⟨w | _, rest⟩
  · exact ⟨s, step_of_nothing hinputs, .nothing hinputs rfl⟩
  · cases hdecode : decode w with
    | command i =>
      obtain ⟨t, hexec⟩ := exec_next i (s.setInputs rest)
      exact ⟨t, (step_of_command hinputs hdecode).trans hexec, .command w rest i hinputs hdecode hexec⟩
    | illegal why => exact ⟨_, step_of_illegal hinputs hdecode, .illegal w rest hinputs rfl⟩
  · exact ⟨_, step_of_reset hinputs, .reset rest hinputs rfl⟩

/-- The ways a step can have come to its next state. -/
theorem step_cases {s t : State} (hstep : step s = .next t) : StepCase s t := by
  obtain ⟨u, hu, hcase⟩ := exists_stepCase s
  rw [hstep, Host.Outcome.next.injEq] at hu
  rwa [hu]

/-- A row of the opcode table read as a command is a word that decodes to it. -/
theorem decode_tableWord {n : Nat} {i : Instr} (hrow : decodeTableWord 32 n = some i) :
    decode (tableWord 32 n) = .command i := by
  rw [decodeTableWord, if_pos le_rfl] at hrow
  cases hdecode : decode (tableWord 32 n) with
  | command j =>
    rw [hdecode, Decoded.toOption, Option.some.injEq] at hrow
    rw [hrow]
  | illegal why => simp [hdecode, Decoded.toOption] at hrow

/-! ### The invariant -/

/-- The state just after Reset of a block with a legal parameter meets the invariant: no byte is listed, `ERR` and `CAUSE` are 0. -/
theorem State.afterReset_inv {cfg : Config} (hlegal : cfg.legal) (k : Nat) (inputs : List HostInput) :
    (State.afterReset cfg k inputs).Inv :=
  ⟨hlegal, rfl, rfl, iff_of_true rfl rfl⟩

/-- The fault procedure keeps the invariant: the cause it writes, and one that `ERR` stands with, is not 0. -/
theorem State.raiseFault_inv {s : State} {code : Cause} (hinv : s.Inv) (hcode : code ≠ .none) : (s.raiseFault code).Inv := by
  obtain ⟨hlegal, hwf, hinside, hcause⟩ := hinv
  refine ⟨hlegal, hwf, hinside, iff_of_false (by simp) ?_⟩
  rw [State.raiseFault_cause]
  split
  case isTrue herr => rwa [← hcause, Bool.not_eq_false]
  case isFalse => exact hcode

/-- A store inside `buf` keeps the invariant. -/
theorem State.memWrite1_inv {s : State} {a : Nat} (hinv : s.Inv) (ha : a < s.bufBytes) (b : Byte) :
    (s.memWrite1 a b).Inv := by
  obtain ⟨hlegal, hwf, hinside, hcause⟩ := hinv
  exact ⟨hlegal, Memory.wf_write hwf a b, Memory.inside_write hinside ha b, hcause⟩

/-- The effect of a command that does not fault keeps the invariant: every store it makes has passed its range check. -/
theorem effectOf_inv {i : Instr} {s : State} (hinv : s.Inv) (hclean : commandFault i s = none) : (effectOf i s).Inv := by
  cases i with
  | crc16App len =>
    have hroom : len + 2 ≤ s.bufBytes := commandFault_crc16App_eq_none.1 hclean
    have hlo : ((s.setCrc (crc16 (s.covered len) len)).memWrite1 len (lo8 (crc16 (s.covered len) len))).Inv :=
      State.memWrite1_inv hinv (show len < s.bufBytes by omega) _
    exact State.memWrite1_inv hlo (show len + 1 < s.bufBytes by omega) _
  | lrcApp len =>
    have hroom : len + 1 ≤ s.bufBytes := commandFault_lrcApp_eq_none.1 hclean
    exact State.memWrite1_inv (s := s.setLrcResult _) hinv hroom _
  | stb addr b =>
    have haddr : addr < s.bufBytes := by simpa [commandFault] using hclean
    exact State.memWrite1_inv hinv haddr b
  | clre =>
    obtain ⟨hlegal, hwf, hinside, -⟩ := hinv
    exact ⟨hlegal, hwf, hinside, iff_of_true rfl rfl⟩
  | _ => exact hinv

/-- Every command keeps the invariant. -/
theorem exec_inv {i : Instr} {s t : State} (hexec : exec i s = .next t) (hinv : s.Inv) : t.Inv := by
  obtain ⟨hclean, rfl⟩ | ⟨code, hfault, rfl⟩ := exec_cases hexec
  · exact effectOf_inv hinv hclean
  · refine State.raiseFault_inv hinv ?_
    rintro rfl
    exact commandFault_ne_none i s hfault

/-! ### Runs -/

/-- A run with nothing presented stays where it is (log entry 4). -/
theorem run_of_nothing {s : State} (hinputs : s.inputs = []) (k : Nat) : core.run k s = .next s := by
  induction k with
  | zero => rfl
  | succ k ih => exact (run_of_step core (step_of_nothing hinputs)).trans ih

/-! ### The obligations -/

/-- Settles O12: a Reset, a command and the fault `ILLEGAL` each keep the invariant, which does not speak of what the host
has still to present. -/
theorem stepKeepsInvariant : Obligations.StepKeepsInvariant := by
  intro s t hinv hstep
  cases step_cases hstep with
  | nothing _ hnext => exact hnext ▸ hinv
  | reset rest _ hnext => exact hnext ▸ State.afterReset_inv hinv.1 _ _
  | command w rest i _ _ hexec => exact exec_inv hexec hinv
  | illegal w rest _ hnext =>
    subst hnext
    exact State.raiseFault_inv (s := s.setInputs rest) hinv nofun

/-- Settles O13: each of the four ways consumes the head of what is presented and leaves the parameter. -/
theorem stepAlwaysAnswersNext : Obligations.StepAlwaysAnswersNext := by
  intro s
  obtain ⟨t, hstep, hcase⟩ := exists_stepCase s
  refine ⟨t, hstep, ?_⟩
  cases hcase with
  | nothing hinputs hnext => simp [hnext, hinputs]
  | reset rest hinputs hnext => simp [hnext, hinputs]
  | command w rest i hinputs _ hexec =>
    rw [hinputs, exec_inputs hexec, exec_config hexec]
    exact ⟨rfl, rfl⟩
  | illegal w rest hinputs hnext => simp [hnext, hinputs]

/-- Settles O14, by induction on what is left to present: a step takes one input, and with none left the run stays. -/
theorem runEndsWithItsInputs : Obligations.RunEndsWithItsInputs := by
  intro s
  induction hinputs : s.inputs generalizing s with
  | nil => exact ⟨s, rfl, hinputs, fun k => run_of_nothing hinputs _⟩
  | cons x rest ih =>
    obtain ⟨u, hstep, hu, -⟩ := stepAlwaysAnswersNext s
    obtain ⟨t, hrun, hend, hstay⟩ := ih u (by rw [hu, hinputs, List.tail_cons])
    refine ⟨t, (run_of_step core hstep).trans hrun, hend, fun k => ?_⟩
    rw [List.length_cons, Nat.add_right_comm]
    exact (run_of_step core hstep).trans (hstay k)

/-- Settles O19: a command other than `CLRE` and the fault `ILLEGAL` leave `ERR` set and keep the first cause. -/
theorem onlyClreAndResetClearErr : Obligations.OnlyClreAndResetClearErr := by
  intro s t hstep herr hreset hclre
  cases step_cases hstep with
  | nothing _ hnext => simp [hnext, herr]
  | reset rest hinputs _ => simp [hinputs] at hreset
  | command w rest i hinputs hdecode hexec =>
    have hne : i ≠ .clre := by
      rintro rfl
      exact hclre w (by rw [hinputs, List.head?_cons]) hdecode
    exact ⟨exec_err_of_ne_clre hexec hne herr, (exec_cause_of_ne_clre hexec hne herr :)⟩
  | illegal w rest _ hnext => simp [hnext, herr]

/-- A command that changes `MATCH` is a `.CHK` command that found its candidate in range (R15, R102). -/
theorem exec_matched_ne {i : Instr} {s t : State} (hexec : exec i s = .next t) (hne : t.matched ≠ s.matched) :
    ∃ len, i = .crc16Chk len ∧ 2 ≤ len ∧ len ≤ s.bufBytes ∨ i = .lrcChk len ∧ 1 ≤ len ∧ len ≤ s.bufBytes := by
  obtain ⟨hclean, rfl⟩ | ⟨code, -, rfl⟩ := exec_cases hexec
  · cases i with
    | crc16Chk len =>
      exact ⟨len, .inl ⟨rfl, State.candidateCheck_eq_none.1 hclean⟩⟩
    | lrcChk len =>
      exact ⟨len, .inr ⟨rfl, State.candidateCheck_eq_none.1 hclean⟩⟩
    | _ => exact absurd rfl hne
  · exact absurd (s.raiseFault_matched code) hne

/-- Settles O21: of the four ways only a Reset and a command can change `MATCH`. -/
theorem matchChangesOnlyByCheck : Obligations.MatchChangesOnlyByCheck := by
  intro s t hstep hne
  cases step_cases hstep with
  | nothing _ hnext => exact absurd (congrArg State.matched hnext) hne
  | reset rest hinputs _ => exact .inl (by rw [hinputs, List.head?_cons])
  | command w rest i hinputs hdecode hexec =>
    obtain ⟨len, ⟨rfl, hlen⟩ | ⟨rfl, hlen⟩⟩ := exec_matched_ne hexec hne
    · exact .inr ⟨w, len, rest, hinputs, .inl ⟨hdecode, hlen⟩⟩
    · exact .inr ⟨w, len, rest, hinputs, .inr ⟨hdecode, hlen⟩⟩
  | illegal w rest _ hnext => exact absurd (congrArg State.matched hnext) hne

/-- Settles O7: a presented word is decoded and its command executed; a row of the table is such a word. -/
theorem stepRunsPresentedCommand : Obligations.StepRunsPresentedCommand :=
  ⟨fun _ _ _ _ => step_of_command, fun _ _ _ hrow => step_of_command rfl (decode_tableWord hrow)⟩

/-- Settles O8: the step's branch for the empty list. -/
theorem stepWithNothingPresented : Obligations.StepWithNothingPresented :=
  fun _ => step_of_nothing

/-- Settles O9: the step is the state just after the next Reset. -/
theorem resetEffect : Obligations.ResetEffect :=
  fun s _ hinputs => ⟨_, step_of_reset hinputs, rfl, rfl, rfl, rfl, rfl, rfl, rfl, rfl, rfl, rfl,
    fun a => ⟨rfl, State.afterReset_memRead1 s.config (s.resets + 1) _ a⟩⟩

/-- Settles O11: 256 bytes is a legal parameter. -/
theorem resetMeetsInvariant : Obligations.ResetMeetsInvariant :=
  ⟨fun _ k inputs hlegal => State.afterReset_inv hlegal k inputs, State.afterReset_inv (by decide) 0 []⟩

/-- Settles O17: a legal `buf` has room for two bytes; a word that does not decode has no operands to check. -/
theorem oneFaultPerCommand : Obligations.OneFaultPerCommand := by
  refine ⟨fun s len hlegal => ?exclusive, fun s w why rest hinputs hdecode => step_of_illegal hinputs hdecode⟩
  case exclusive =>
    have hroom : 4 ≤ s.bufBytes := hlegal.1
    omega

end Sys2Proof.Machine
end

