-- ==== Sys2Proof/Proofs/StatusView.lean ====
section
/-! PROOFS. The register `STATUS` as the host reads it (10_state.md R15, R18; 60_exceptions.md R100). -/

namespace Sys2Proof.Machine

/-- The four parts of `STATUS`: `MATCH`, `ERR`, two bits that read 0, and the cause code (R15). -/
theorem State.status_fields (s : State) :
    s.status.getLsbD 0 = s.matched ∧ s.status.getLsbD 1 = s.err ∧ s.status.getLsbD 2 = false ∧
      s.status.getLsbD 3 = false ∧ s.status.toNat / 16 = s.cause.code.toNat := by
  rw [State.status]
  cases s.cause <;> cases s.err <;> cases s.matched <;> decide

theorem Cause.code_injective : Function.Injective Cause.code := by
  intro c d
  cases c <;> cases d <;> simp [Cause.code]

/-- Settles O20: each field of `STATUS` has bits of its own, so a state that is observed alike has the same fields. -/
theorem statusLayout : Obligations.StatusLayout := by
  refine ⟨fun s => ?layout, fun s t hview => ?view⟩
  case layout =>
    obtain ⟨hmatched, herr, hbit2, hbit3, hcode⟩ := s.status_fields
    refine ⟨hmatched, herr, hbit2, hbit3, hcode.trans ?_⟩
    cases s.cause <;> rfl
  case view =>
    have hstatus : s.status = t.status := congrArg Observation.status hview
    obtain ⟨hmatched, herr, -, -, hcode⟩ := s.status_fields
    obtain ⟨hmatched', herr', -, -, hcode'⟩ := t.status_fields
    rw [hstatus] at hmatched herr hcode
    exact ⟨congrArg Observation.crc hview, congrArg Observation.sum hview, congrArg Observation.lrc hview,
      congrArg Observation.dout hview, hmatched.symm.trans hmatched', herr.symm.trans herr',
      Cause.code_injective (BitVec.eq_of_toNat_eq (hcode.symm.trans hcode'))⟩

end Sys2Proof.Machine
end

