-- ==== Sys2Proof/Proofs/ChecksumLaws.lean ====
section
/-! PROOFS. The laws of the CRC and of the LRC (40_range_checksum.md R63 and R64). -/

namespace Sys2Proof.Machine

/-! ### The steps of the CRC (laws L1 and L2) -/

theorem crc16Bit_bijective : Function.Bijective crc16Bit :=
  Function.Injective.bijective_of_finite crc16Bit_injective

/-- Law L1: the bit step undoes its inverse, since an inverse on the left of a bijection is one on the right. -/
theorem crc16Bit_crc16BitInverse (r : Half) : crc16Bit (crc16BitInverse r) = r :=
  Function.LeftInverse.rightInverse_of_surjective crc16BitInverse_crc16Bit crc16Bit_bijective.surjective r

/-- The bit step as one XOR: of the shifted value and, when a 1 was shifted out, the polynomial. -/
theorem crc16Bit_eq_xor (c : Half) : crc16Bit c = (c >>> 1) ^^^ bif c.getLsbD 0 then crcPoly else 0x0000#16 := by
  unfold crc16Bit
  cases c.getLsbD 0 <;> simp

/-- Law L2: the bit step is linear; two polynomials cancel. -/
theorem crc16Bit_xor (x y : Half) : crc16Bit (x ^^^ y) = crc16Bit x ^^^ crc16Bit y := by
  have hpoly : ∀ p q : Bool, (bif p ^^ q then crcPoly else 0x0000#16) =
      (bif p then crcPoly else 0x0000#16) ^^^ bif q then crcPoly else 0x0000#16 := by decide
  rw [crc16Bit_eq_xor, crc16Bit_eq_xor, crc16Bit_eq_xor, BitVec.ushiftRight_xor_distrib, BitVec.getLsbD_xor, hpoly]
  ac_rfl

theorem crc16Bits_xor (k : Nat) (x y : Half) : crc16Bits k (x ^^^ y) = crc16Bits k x ^^^ crc16Bits k y := by
  induction k generalizing x y with
  | zero => rfl
  | succ k ih => rw [crc16Bits, crc16Bit_xor, ih, crc16Bits, crc16Bits]

theorem crc16Bits_add (j k : Nat) (c : Half) : crc16Bits k (crc16Bits j c) = crc16Bits (j + k) c := by
  rw [crc16Bits_eq_iterate, crc16Bits_eq_iterate, crc16Bits_eq_iterate, Nat.add_comm, Function.iterate_add_apply]

/-- The byte step is linear in register and byte together. -/
theorem crc16Byte_xor (c d : Half) (b e : Byte) : crc16Byte (c ^^^ d) (b ^^^ e) = crc16Byte c b ^^^ crc16Byte d e := by
  rw [crc16Byte, crc16Byte, crc16Byte, ← crc16Bits_xor, BitVec.setWidth_xor]
  congr 1
  ac_rfl

/-! ### The CRC loop (laws L2 to L5) -/

/-- The CRC of a whole list is the loop over it. -/
theorem crc16_of_length_le {m : List Byte} {n : Nat} (hn : m.length ≤ n) : crc16 m n = crcFeed crcInitial m := by
  rw [crc16, List.take_of_length_le hn]

/-- Law L2: the difference of two loops is the loop over the differences. -/
theorem crcFeed_xor {m m' : List Byte} (hlength : m.length = m'.length) (c c' : Half) :
    crcFeed c' m' ^^^ crcFeed c m = crcFeed (c' ^^^ c) (List.zipWith (· ^^^ ·) m' m) := by
  induction m generalizing m' c c' with
  | nil => rw [List.eq_nil_of_length_eq_zero hlength.symm]; rfl
  | cons b m ih =>
    cases m' with
    | nil => simp at hlength
    | cons b' m' =>
      rw [List.zipWith_cons_cons, crcFeed, crcFeed, crcFeed, crc16Byte_xor]
      exact ih (Nat.succ.inj hlength) _ _

/-- Law L2: the difference of the CRCs of two equally long strings. -/
theorem crc16_xor {m m' : List Byte} (hlength : m.length = m'.length) :
    crc16 m' m'.length ^^^ crc16 m m.length = crcDifference m' m := by
  rw [crc16_of_length_le le_rfl, crc16_of_length_le le_rfl, crcFeed_xor hlength, BitVec.xor_self, crcDifference]

/-- Law L3: the CRC of a joined message goes on from the CRC of its first part. -/
theorem crc16_append (m t : List Byte) : crc16 (m ++ t) (m.length + t.length) = crcFeed (crc16 m m.length) t := by
  rw [crc16_of_length_le List.length_append.le, crc16_of_length_le le_rfl, crcFeed_append]

/-- Eight bit steps move the high byte of a register whose low byte is 0 into the low byte. -/
theorem crc16Bits_eight_shiftLeft (hi : Byte) : crc16Bits 8 (hi.setWidth 16 <<< 8) = hi.setWidth 16 := by
  have := hi.isLt
  apply crc16Bits_shiftLeft
  rw [BitVec.toNat_setWidth]
  omega

/-- Law L5: two bytes are sixteen bit steps of the XOR of the register and these bytes, low byte first. -/
theorem crcFeed_pair (c : Half) (lo hi : Byte) : crcFeed c [lo, hi] = crc16Bits 16 (c ^^^ ofHiLo hi lo) := by
  calc crcFeed c [lo, hi]
      = crc16Bits 8 (crc16Bits 8 (c ^^^ lo.setWidth 16) ^^^ crc16Bits 8 (hi.setWidth 16 <<< 8)) := by
        rw [crc16Bits_eight_shiftLeft]
        rfl
    _ = crc16Bits 16 (c ^^^ lo.setWidth 16 ^^^ hi.setWidth 16 <<< 8) := by
        rw [← crc16Bits_xor, crc16Bits_add]
    _ = crc16Bits 16 (c ^^^ ofHiLo hi lo) := by
        rw [ofHiLo_eq_xor, BitVec.xor_assoc, BitVec.xor_comm (lo.setWidth 16)]

/-- Two bytes in a row can be told from any other two by the register after them. -/
theorem crcFeed_pair_injective {c : Half} {x y x' y' : Byte} (heq : crcFeed c [x, y] = crcFeed c [x', y']) :
    (x, y) = (x', y') := by
  rw [crcFeed_pair, crcFeed_pair, (crc16Bits_injective 16).eq_iff, BitVec.xor_right_inj] at heq
  rw [Prod.mk.injEq, ← lo8_ofHiLo y x, heq, lo8_ofHiLo, ← hi8_ofHiLo y x, heq, hi8_ofHiLo]
  exact ⟨rfl, rfl⟩

/-- A difference within a string, wherever it stands, changes the CRC if it changes the register right after it. -/
theorem crc16_append_ne {mid mid' : List Byte} (hne : ∀ c, crcFeed c mid ≠ crcFeed c mid')
    (hlength : mid'.length = mid.length) (before after : List Byte) :
    crc16 (before ++ mid ++ after) (before.length + mid.length + after.length) ≠
      crc16 (before ++ mid' ++ after) (before.length + mid.length + after.length) := by
  rw [crc16_of_length_le (by simp [Nat.add_assoc]), crc16_of_length_le (by simp [hlength, Nat.add_assoc])]
  simp only [crcFeed_append]
  exact (crcFeed_injective after).ne (hne _)

/-! ### The byte sum (laws M1 to M4) -/

theorem sumFeed_eq_add (s : Byte) (m : List Byte) : sumFeed s m = s + sumFeed 0x00#8 m := by
  apply BitVec.eq_of_toNat_eq
  simp [sumFeed_toNat]

/-- The sum of a whole list is the loop over it. -/
theorem sum8_of_length_le {m : List Byte} {n : Nat} (hn : m.length ≤ n) : sum8 m n = sumFeed 0x00#8 m := by
  rw [sum8, List.take_of_length_le hn]

/-- Exchanging one byte for another moves the sum by their difference. -/
theorem sumFeed_set {m : List Byte} {i : Nat} {b b' : Byte} (hb : m[i]? = some b) (s : Byte) :
    sumFeed s (m.set i b') = sumFeed s m + (b' - b) := by
  induction m generalizing s i with
  | nil => simp at hb
  | cons x m ih =>
    cases i with
    | zero =>
      obtain rfl : x = b := by simpa using hb
      rw [List.set_cons_zero, sumFeed, sumFeed, sumFeed_eq_add, sumFeed_eq_add (s + x)]
      ring
    | succ i => exact ih (by simpa using hb) (s + x)

theorem sum8_set {bytes : List Byte} {n i : Nat} {b b' : Byte} (hi : i < n) (hb : bytes[i]? = some b) :
    sum8 (bytes.set i b') n = sum8 bytes n + (b' - b) := by
  rw [sum8, List.take_set, sumFeed_set (by rwa [List.getElem?_take_of_lt hi]), sum8]

theorem lrcOfSum_injective : Function.Injective lrcOfSum := by
  intro s t heq
  simpa only [lrcOfSum_eq_neg, neg_inj] using heq

/-- Exchanging one byte for another changes the sum. -/
theorem sumFeed_set_ne {m : List Byte} {i : Nat} {b b' : Byte} (hb : m[i]? = some b) (hne : b' ≠ b) (s : Byte) :
    sumFeed s (m.set i b') ≠ sumFeed s m := by
  rw [sumFeed_set hb, ne_eq, add_eq_left, sub_eq_zero]
  exact hne

/-- Inverting a bit that is 0 adds its weight: nothing carries. -/
theorem flipBit_of_clear {k : Nat} {b : Byte} (hclear : b.getLsbD k = false) :
    b ^^^ (0x01#8 <<< k) = b + (0x01#8 <<< k) := by
  rw [← BitVec.twoPow_eq]
  have hand : b &&& BitVec.twoPow 8 k = 0#8 := by rw [BitVec.and_twoPow, hclear, if_neg Bool.false_ne_true]
  rw [BitVec.add_eq_or_of_and_eq_zero _ _ hand]
  apply BitVec.eq_of_getLsbD_eq
  intro i hi
  rw [BitVec.getLsbD_xor, BitVec.getLsbD_or, BitVec.getLsbD_twoPow]
  by_cases hik : k = i
  · simp [← hik, hclear]
  · simp [hik]

/-- Inverting bit `k` moves a byte up or down by the bit's weight; down when it was 1, since inverting it again moves up (law M4). -/
theorem flipBit_sub {k : Nat} (hk : k < 8) (b : Byte) :
    (b ^^^ (0x01#8 <<< k)) - b = 0x01#8 <<< k ∨ (b ^^^ (0x01#8 <<< k)) - b = -(0x01#8 <<< k) := by
  cases hbit : b.getLsbD k with
  | false => exact .inl (by rw [flipBit_of_clear hbit, add_sub_cancel_left])
  | true =>
    have hclear : (b ^^^ (0x01#8 <<< k)).getLsbD k = false := by simp [hbit, hk]
    have hback : b = (b ^^^ (0x01#8 <<< k)) + (0x01#8 <<< k) := by
      rw [← flipBit_of_clear hclear, BitVec.xor_assoc, BitVec.xor_self, BitVec.xor_zero]
    exact .inr (by rw [eq_neg_iff_add_eq_zero, sub_add_eq_add_sub, ← hback, sub_self])

/-! ### The obligations -/

/-- Settles O49: the bit step is injective on a finite type, and the spec's inverse undoes it on the other side too. -/
theorem crcBitStepIsBijective : Obligations.CrcBitStepIsBijective :=
  ⟨crc16Bit_bijective, crc16Bit_crc16BitInverse⟩

/-- Settles O50: the bit step is linear, so the loop is; the loop's steps are injective, so a difference stays one. -/
theorem crcIsLinear : Obligations.CrcIsLinear := by
  refine ⟨crc16Bit_xor, fun m m' hlength => crc16_xor hlength, fun before after x y x' y' hne => ?pair,
    fun before after x x' hne => ?single⟩
  case pair =>
    have hregister : ∀ c, crcFeed c [x, y] ≠ crcFeed c [x', y'] := fun c heq => hne (crcFeed_pair_injective heq)
    exact crc16_append_ne hregister rfl before after
  case single =>
    have hregister : ∀ c, crcFeed c [x] ≠ crcFeed c [x'] := fun c heq => hne (crc16Byte_right_injective c heq)
    exact crc16_append_ne hregister rfl before after

/-- Settles O51: law L5 for two appended bytes, and the CRC's own bytes are the two that give 0. -/
theorem crcResidue : Obligations.CrcResidue := by
  have hpair (m : List Byte) (s0 s1 : Byte) :
      crc16 (m ++ [s0, s1]) (m.length + 2) = crcFeed (crc16 m m.length) [s0, s1] := crc16_append m [s0, s1]
  refine ⟨fun m => ?own, fun m s0 s1 => ⟨?steps, ?zero⟩⟩
  case own =>
    intro c
    rw [hpair, crcFeed_pair_eq_zero_iff, ofHiLo_hi8_lo8]
  case steps => rw [hpair, crcFeed_pair, crc16Bits_eq_iterate]
  case zero => rw [hpair, crcFeed_pair_eq_zero_iff, eq_comm]

/-- Settles O59: every number of bit steps inherits the laws of one; a flipped bit is a difference of two CRCs that differ. -/
theorem crcStepLaws : Obligations.CrcStepLaws := by
  refine ⟨fun c => ⟨crc16BitInverse_crc16Bit c, crc16Bit_crc16BitInverse c⟩, crc16Bits_zero 1,
    fun c b => crc16Bits_eq_iterate 8 _, fun k => ⟨fun x y => ?linear, crc16Bit_bijective.iterate k, ?zero⟩,
    fun m i k b hk hb => ?flipped⟩
  case linear => simp only [← crc16Bits_eq_iterate, crc16Bits_xor]
  case zero => rw [← crc16Bits_eq_iterate, crc16Bits_zero]
  case flipped =>
    intro flipped
    have hlength : m.length = flipped.length := List.length_set.symm
    have hcrc : crc16 flipped m.length = crcFeed crcInitial flipped := crc16_of_length_le hlength.ge
    have hdiff : crc16 flipped m.length ^^^ crc16 m m.length = crcDifference flipped m := by
      rw [← crc16_xor hlength, hlength]
    rw [← hdiff, ne_eq, BitVec.xor_eq_zero_iff, hcrc, crc16_of_length_le le_rfl]
    refine ⟨crcFeed_set_ne hb (flipBit_ne hk b) _, ?_⟩
    rw [BitVec.xor_comm, BitVec.xor_assoc, BitVec.xor_self, BitVec.xor_zero]

/-- Settles O53: the complement step is the negation, sums append, and a flipped bit moves the sum by its weight. -/
theorem lrcLaws : Obligations.LrcLaws := by
  refine ⟨fun s => ⟨?involution, ?fixed⟩, fun s t => ?completion, fun m t => ?append,
    fun bytes n i k b hi hk hb => ⟨?weight, ?detected⟩⟩
  case involution => rw [lrcOfSum_eq_neg, lrcOfSum_eq_neg, neg_neg]
  case fixed =>
    have := s.isLt
    rw [BitVec.toNat_eq, BitVec.toNat_eq, BitVec.toNat_eq, lrcOfSum_toNat, BitVec.toNat_ofNat, BitVec.toNat_ofNat]
    omega
  case completion => rw [← lrcOfSum_eq_iff, eq_comm]
  case append =>
    rw [sum8_of_length_le List.length_append.le, sumFeed_append, sumFeed_eq_add, sum8_of_length_le le_rfl,
      sum8_of_length_le le_rfl]
  case weight =>
    rw [sum8_set hi hb, sub_eq_add_neg (sum8 bytes n), add_right_inj, add_right_inj]
    exact flipBit_sub hk b
  case detected =>
    rw [lrcOf, lrcOf, lrcOfSum_injective.ne_iff, sum8, List.take_set, sum8]
    exact sumFeed_set_ne (by rwa [List.getElem?_take_of_lt hi]) (flipBit_ne hk b) _

theorem lo8_xor (c d : Half) : lo8 (c ^^^ d) = lo8 c ^^^ lo8 d := BitVec.extractLsb'_xor

theorem hi8_xor (c d : Half) : hi8 (c ^^^ d) = hi8 c ^^^ hi8 d := BitVec.extractLsb'_xor

/-- The low byte of a widened byte is the byte. -/
theorem lo8_setWidth (b : Byte) : lo8 (b.setWidth 16) = b := by
  have := b.isLt
  apply BitVec.eq_of_toNat_eq
  rw [lo8_toNat, BitVec.toNat_setWidth]
  omega

/-- The high byte of a widened byte is 0. -/
theorem hi8_setWidth (b : Byte) : hi8 (b.setWidth 16) = 0x00#8 := by
  have := b.isLt
  apply BitVec.eq_of_toNat_eq
  rw [hi8_toNat, BitVec.toNat_setWidth, BitVec.toNat_ofNat]
  omega

/-- Settles O43: the XOR with a widened byte reaches bits 7:0 only. -/
theorem crcByteStep : Obligations.CrcByteStep := by
  refine ⟨fun c b => ⟨c ^^^ b.setWidth 16, ?lo, ?hi, crc16Bits_eq_iterate 8 _⟩, by decide⟩
  case lo => rw [lo8_xor, lo8_setWidth]
  case hi => rw [hi8_xor, hi8_setWidth, BitVec.xor_zero]

/-- Settles O52, by computing the three values. -/
theorem crcParticularValues : Obligations.CrcParticularValues :=
  ⟨by decide +kernel, by decide +kernel, by decide +kernel⟩

end Sys2Proof.Machine
end

