-- ==== Sys2Proof/Proofs/Relations.lean ====
section
/-! PROOFS. What runs of several commands do: program order, streams, appends and checks (20_memory.md section 7,
40_range_checksum.md section 5, 41_streaming.md). -/

namespace Sys2Proof.Machine

/-! ### Runs of commands -/

theorem execAll_cons {i : Instr} {is : List Instr} {s t : State} (hexec : exec i s = .next t) :
    execAll (i :: is) s = execAll is t := by
  simp only [execAll, hexec]

/-- The second of two joined lists goes on from the state the first answers. -/
theorem execAll_append {is js : List Instr} {s t : State} (hrun : execAll is s = .next t) :
    execAll (is ++ js) s = execAll js t := by
  induction is generalizing s with
  | nil =>
    obtain rfl : s = t := Host.Outcome.next.inj hrun
    rfl
  | cons i is ih =>
    obtain ⟨u, hexec⟩ := exec_next i s
    rw [execAll_cons hexec] at hrun
    exact (execAll_cons hexec).trans (ih hrun)

/-- Commands keep the parameter and every byte of a set of addresses that none of them stores to. -/
theorem execAll_frame {is : List Instr} {A : Nat → Prop} (hstores : ∀ i ∈ is, ∀ a, A a → a ∉ storesAt i) (s : State) :
    ∃ t, execAll is s = .next t ∧ t.bufBytes = s.bufBytes ∧ ∀ a, A a → t.memRead1 a = s.memRead1 a := by
  refine execAll_keeps (P := fun t => t.bufBytes = s.bufBytes ∧ ∀ a, A a → t.memRead1 a = s.memRead1 a)
    (fun i hi u v hexec ⟨hsize, hbytes⟩ => ⟨?size, fun a ha => ?byte⟩) ⟨rfl, fun _ _ => rfl⟩
  case size => exact (congrArg Config.bufBytes (exec_config hexec)).trans hsize
  case byte => exact (exec_memRead1 hexec (hstores i hi a ha)).trans (hbytes a ha)

/-! ### Program order -/

/-- A load reads the byte that a command left at its address, through commands that do not store there. -/
theorem execAll_load {i : Instr} {s t : State} {a : Nat} {b : Byte} {between : List Instr} (hexec : exec i s = .next t)
    (hbyte : t.memRead1 a = b) (ha : a < s.bufBytes) (hbetween : ∀ j ∈ between, a ∉ storesAt j) :
    ∃ v, execAll (i :: (between ++ [.ldb a])) s = .next v ∧ v.dout = b := by
  obtain ⟨u, hrun, hsize, hkept⟩ := execAll_frame (A := (· = a)) (fun j hj _ h => h ▸ hbetween j hj) t
  have hload : exec (.ldb a) u = .next { u with dout := u.memRead1 a } := by
    apply exec_ldb
    rwa [hsize, State.bufBytes, exec_config hexec]
  refine ⟨{ u with dout := u.memRead1 a }, ?_, (hkept a rfl).trans hbyte⟩
  rw [execAll_cons hexec, execAll_append hrun, execAll_cons hload, execAll]

/-- Settles O25: each of the four commands leaves its byte at `a`, where the load finds it. -/
theorem loadReadsLatestStore : Obligations.LoadReadsLatestStore := by
  intro s a b between hbetween ha
  refine ⟨execAll_load (exec_stb ha) (s.memWrite1_memRead1_same a b) ha hbetween, fun hroom => ?crcLow,
    fun hpos => ?crcHigh, ?lrc⟩
  case crcLow =>
    exact execAll_load (exec_of_no_fault (commandFault_crc16App_eq_none.2 hroom)) (effectOf_crc16App_memRead1_lo a s) ha
      hbetween
  case crcHigh =>
    obtain ⟨n, rfl⟩ := Nat.exists_eq_add_of_le' hpos
    exact execAll_load (exec_of_no_fault (commandFault_crc16App_eq_none.2 ha)) (effectOf_crc16App_memRead1_hi n s) ha
      hbetween
  case lrc =>
    exact execAll_load (exec_of_no_fault (commandFault_lrcApp_eq_none.2 ha)) (effectOf_lrcApp_memRead1 a s) ha hbetween

/-! ### Streams -/

/-- Streaming bytes with `CRC.UPD` is the CRC loop over them (R81). -/
theorem execAll_crcUpd (bytes : List Byte) (s : State) :
    execAll (bytes.map .crcUpd) s = .next { s with crc := crcFeed s.crc bytes } := by
  induction bytes generalizing s with
  | nil => rfl
  | cons b bytes ih => exact (execAll_cons (exec_crcUpd b s)).trans (ih _)

/-- Streaming bytes with `LRC.UPD` is the sum loop over them (R83). -/
theorem execAll_lrcUpd (bytes : List Byte) (s : State) :
    execAll (bytes.map .lrcUpd) s = .next { s with sum := sumFeed s.sum bytes } := by
  induction bytes generalizing s with
  | nil => rfl
  | cons b bytes ih => exact (execAll_cons (exec_lrcUpd b s)).trans (ih _)

/-- The sum of a covered range is the loop over all its bytes. -/
theorem sum8_covered (s : State) (n : Nat) : sum8 (s.covered n) n = sumFeed 0x00#8 (s.covered n) :=
  sum8_of_length_le (s.covered_length n).le

/-- Streaming the bytes of a covered range from `CRC.INIT` leaves its CRC. -/
theorem execAll_crcStream (s : State) (len : Nat) :
    execAll (.crcInit :: (s.covered len).map .crcUpd) s = .next { s with crc := crc16 (s.covered len) len } := by
  rw [execAll_cons (exec_crcInit s), execAll_crcUpd, crc16_covered]
  rfl

/-- Streaming the bytes of a covered range from `LRC.INIT` leaves its sum. -/
theorem execAll_lrcStream (s : State) (len : Nat) :
    execAll (.lrcInit :: (s.covered len).map .lrcUpd) s = .next { s with sum := sum8 (s.covered len) len } := by
  rw [execAll_cons (exec_lrcInit s), execAll_lrcUpd, sum8_covered]

/-- Settles O56: the streamed loops are those of the range commands, and `LRC.FIN` complements the sum. -/
theorem rangeEqualsStream : Obligations.RangeEqualsStream := by
  intro len s hlen
  refine ⟨(execAll_crcStream s len).trans (exec_crc16 hlen).symm, ?lrc⟩
  case lrc =>
    rw [exec_lrc hlen, ← List.cons_append, execAll_append (execAll_lrcStream s len), execAll_cons (exec_lrcFin _), execAll]

/-- Settles O60: the CRC loop over a joined list, and streaming is that loop. -/
theorem crcAppendLaw : Obligations.CrcAppendLaw := by
  refine fun m t => ⟨crc16_append m t, fun s hcrc => ?_⟩
  rw [execAll_crcUpd, hcrc, crc16_append]

/-! ### Appends and checks -/

/-- `CRC16.CHK` in range completes, leaves `ERR`, and sets `MATCH` exactly when the whole candidate has residue 0. -/
theorem exec_crc16Chk_residue {n : Nat} {s : State} (hlen : n + 2 ≤ s.bufBytes) :
    ∃ t, exec (.crc16Chk (n + 2)) s = .next t ∧ t.crc = crc16 (s.covered n) n ∧ t.err = s.err ∧
      (t.matched = true ↔ crc16 (s.covered (n + 2)) (n + 2) = 0x0000#16) :=
  ⟨_, exec_crc16Chk hlen, rfl, rfl, crcMatches_iff.trans crc16_covered_eq_zero_iff.symm⟩

/-- `LRC.CHK` in range completes, leaves `ERR`, and sets `MATCH` exactly when the whole candidate sums to 0. -/
theorem exec_lrcChk_residue {n : Nat} {s : State} (hlen : n + 1 ≤ s.bufBytes) :
    ∃ t, exec (.lrcChk (n + 1)) s = .next t ∧ t.lrc = lrcOf (s.covered n) n ∧ t.err = s.err ∧
      (t.matched = true ↔ sum8 (s.covered (n + 1)) (n + 1) = 0x00#8) :=
  ⟨_, exec_lrcChk hlen, rfl, rfl, lrcMatches_iff.trans sum8_covered_eq_zero_iff.symm⟩

/-- `CRC16.APP` in range leaves `ERR`, the CRC of the covered bytes in `CRC`, and a frame of residue 0. -/
theorem exec_crc16App_frame {n : Nat} {s : State} (hlen : n + 2 ≤ s.bufBytes) :
    ∃ t, exec (.crc16App n) s = .next t ∧ t.bufBytes = s.bufBytes ∧ t.err = s.err ∧ t.crc = crc16 (t.covered n) n ∧
      crc16 (t.covered (n + 2)) (n + 2) = 0x0000#16 := by
  have hkept : (effectOf (.crc16App n) s).covered n = s.covered n :=
    State.covered_congr fun a ha => effectOf_memRead1 (by simp [storesAt]; omega) s
  refine ⟨_, exec_of_no_fault (commandFault_crc16App_eq_none.2 hlen), rfl, rfl, ?_, ?_⟩
  · rw [hkept]
    rfl
  · rw [crc16_covered_eq_zero_iff, hkept, eq_memRead2_iff, effectOf_crc16App_memRead1_lo, effectOf_crc16App_memRead1_hi]
    exact ⟨rfl, rfl⟩

/-- `LRC.APP` in range leaves `ERR`, the LRC of the covered bytes in `LRC`, and a frame that sums to 0. -/
theorem exec_lrcApp_frame {n : Nat} {s : State} (hlen : n + 1 ≤ s.bufBytes) :
    ∃ t, exec (.lrcApp n) s = .next t ∧ t.bufBytes = s.bufBytes ∧ t.err = s.err ∧ t.lrc = lrcOf (t.covered n) n ∧
      sum8 (t.covered (n + 1)) (n + 1) = 0x00#8 := by
  have hkept : (effectOf (.lrcApp n) s).covered n = s.covered n :=
    State.covered_congr fun a ha => effectOf_memRead1 (by simp [storesAt]; omega) s
  refine ⟨_, exec_of_no_fault (commandFault_lrcApp_eq_none.2 hlen), rfl, rfl, ?_, ?_⟩
  · rw [hkept]
    rfl
  · rw [sum8_covered_eq_zero_iff, hkept, effectOf_lrcApp_memRead1]
    rfl

/-- Settles O54: the commands in between leave the frame as the append left it, with residue 0. -/
theorem appendThenCheckMatches : Obligations.AppendThenCheckMatches := by
  refine ⟨fun n s between hlen hbetween => ?crc, fun n s between hlen hbetween => ?lrc⟩
  case crc =>
    obtain ⟨t, happend, hsize, -, hcrc, hresidue⟩ := exec_crc16App_frame hlen
    obtain ⟨u, hrun, hsize', hbytes⟩ := execAll_frame (A := (· < n + 2)) hbetween t
    have hframe : u.covered (n + 2) = t.covered (n + 2) := State.covered_congr hbytes
    have hkept : u.covered n = t.covered n := State.covered_congr fun a ha => hbytes a (by omega)
    obtain ⟨v, hcheck, hcrc', -, hmatch⟩ := exec_crc16Chk_residue (n := n) (s := u) (by omega)
    exact ⟨t, u, v, happend, hrun, hcheck, hmatch.2 (by rw [hframe, hresidue]), by rw [hcrc', hkept, hcrc]⟩
  case lrc =>
    obtain ⟨t, happend, hsize, -, hlrc, hresidue⟩ := exec_lrcApp_frame hlen
    obtain ⟨u, hrun, hsize', hbytes⟩ := execAll_frame (A := (· < n + 1)) hbetween t
    have hframe : u.covered (n + 1) = t.covered (n + 1) := State.covered_congr hbytes
    have hkept : u.covered n = t.covered n := State.covered_congr fun a ha => hbytes a (by omega)
    obtain ⟨v, hcheck, hlrc', -, hmatch⟩ := exec_lrcChk_residue (n := n) (s := u) (by omega)
    exact ⟨t, u, v, happend, hrun, hcheck, hmatch.2 (by rw [hframe, hresidue]), by rw [hlrc', hkept, hlrc]⟩

/-- A stored byte is exchanged in the covered range. -/
theorem State.memWrite1_covered (s : State) (a n : Nat) (b : Byte) :
    (s.memWrite1 a b).covered n = (s.covered n).set a b := by
  apply List.ext_getElem (by simp)
  intro i hi _
  simp [State.covered, State.memWrite1_memRead1, List.getElem_set, eq_comm (a := i)]

theorem State.covered_getElem? {s : State} {n a : Nat} (ha : a < n) : (s.covered n)[a]? = some (s.memRead1 a) :=
  memRead1_of_covered rfl ha

/-- Settles O55: the frame had residue 0, and exchanging one of its bytes changes the residue. -/
theorem flippedBitFailsTheCheck : Obligations.FlippedBitFailsTheCheck := by
  refine ⟨fun n a k s hlen ha hk => ?crc, fun n a k s hlen ha hk => ?lrc⟩
  case crc =>
    obtain ⟨t, happend, hsize, herr, -, hresidue⟩ := exec_crc16App_frame hlen
    have hstore := exec_stb (addr := a) (b := t.memRead1 a ^^^ (0x01#8 <<< k)) (s := t) (by omega)
    obtain ⟨v, hcheck, -, herr', hmatch⟩ := exec_crc16Chk_residue (n := n)
      (s := t.memWrite1 a (t.memRead1 a ^^^ (0x01#8 <<< k))) (hlen.trans hsize.ge)
    refine ⟨t, _, v, happend, hstore, hcheck, ?_, herr'.trans herr⟩
    rw [← Bool.not_eq_true, hmatch, ← hresidue, crc16_covered, crc16_covered, State.memWrite1_covered]
    exact crcFeed_set_ne (State.covered_getElem? ha) (flipBit_ne hk _) _
  case lrc =>
    obtain ⟨t, happend, hsize, herr, -, hresidue⟩ := exec_lrcApp_frame hlen
    have hstore := exec_stb (addr := a) (b := t.memRead1 a ^^^ (0x01#8 <<< k)) (s := t) (by omega)
    obtain ⟨v, hcheck, -, herr', hmatch⟩ := exec_lrcChk_residue (n := n)
      (s := t.memWrite1 a (t.memRead1 a ^^^ (0x01#8 <<< k))) (hlen.trans hsize.ge)
    refine ⟨t, _, v, happend, hstore, hcheck, ?_, herr'.trans herr⟩
    rw [← Bool.not_eq_true, hmatch, ← hresidue, sum8_covered, sum8_covered, State.memWrite1_covered]
    exact sumFeed_set_ne (State.covered_getElem? ha) (flipBit_ne hk _) _

/-- Settles O57: both sides say that the whole candidate has residue 0. -/
theorem streamedResidueAgreesWithCheck : Obligations.StreamedResidueAgreesWithCheck := by
  refine ⟨fun len s hroom hlen => ?crc, fun len s hroom hlen => ?lrc⟩
  case crc =>
    obtain ⟨n, rfl⟩ := Nat.exists_eq_add_of_le' hroom
    obtain ⟨u, hcheck, -, -, hmatch⟩ := exec_crc16Chk_residue hlen
    exact ⟨_, u, execAll_crcStream s _, hcheck, rfl, hmatch.symm⟩
  case lrc =>
    obtain ⟨n, rfl⟩ := Nat.exists_eq_add_of_le' hroom
    obtain ⟨u, hcheck, -, -, hmatch⟩ := exec_lrcChk_residue hlen
    exact ⟨_, u, execAll_lrcStream s _, hcheck, rfl, hmatch.symm⟩

/-! ### The two sides -/

/-- A streaming or plain range command of the CRC side in range has its effect, which is to set `CRC`. -/
theorem exec_crcSide {b : Byte} {len : Nat} {i : Instr} {s : State} (hlen : len ≤ s.bufBytes)
    (hi : i ∈ [Instr.crcInit, .crcUpd b, .crc16 len]) : exec i s = .next (s.setCrc (effectOf i s).crc) := by
  simp only [List.mem_cons, List.not_mem_nil, or_false] at hi
  obtain rfl | rfl | rfl := hi
  · exact exec_crcInit s
  · exact exec_crcUpd b s
  · exact exec_crc16 hlen

/-- What a command of the CRC side sets `CRC` to does not depend on `SUM` and `LRC`. -/
theorem effectOf_crcSide {b : Byte} {len : Nat} {i : Instr} (hi : i ∈ [Instr.crcInit, .crcUpd b, .crc16 len])
    (s : State) (v w : Byte) : (effectOf i ((s.setSum v).setLrc w)).crc = (effectOf i s).crc := by
  simp only [List.mem_cons, List.not_mem_nil, or_false] at hi
  obtain rfl | rfl | rfl := hi <;> rfl

/-- A streaming or plain range command of the LRC side in range has its effect, which is to set `SUM` and `LRC`. -/
theorem exec_lrcSide {b : Byte} {len : Nat} {j : Instr} {s : State} (hlen : len ≤ s.bufBytes)
    (hj : j ∈ [Instr.lrcInit, .lrcUpd b, .lrcFin, .lrc len]) :
    exec j s = .next ((s.setSum (effectOf j s).sum).setLrc (effectOf j s).lrc) := by
  simp only [List.mem_cons, List.not_mem_nil, or_false] at hj
  obtain rfl | rfl | rfl | rfl := hj
  · exact exec_lrcInit s
  · exact exec_lrcUpd b s
  · exact exec_lrcFin s
  · exact exec_lrc hlen

/-- What a command of the LRC side sets `SUM` and `LRC` to does not depend on `CRC`. -/
theorem effectOf_lrcSide {b : Byte} {len : Nat} {j : Instr} (hj : j ∈ [Instr.lrcInit, .lrcUpd b, .lrcFin, .lrc len])
    (s : State) (c : Half) :
    (effectOf j (s.setCrc c)).sum = (effectOf j s).sum ∧ (effectOf j (s.setCrc c)).lrc = (effectOf j s).lrc := by
  simp only [List.mem_cons, List.not_mem_nil, or_false] at hj
  obtain rfl | rfl | rfl | rfl := hj <;> exact ⟨rfl, rfl⟩

/-- Settles O58: each side sets its own registers, to values that do not depend on the other side's. -/
theorem crcAndLrcSidesCommute : Obligations.CrcAndLrcSidesCommute := by
  intro s b b' len len' hlen hlen' i hi j hj
  obtain ⟨hsum, hlrc⟩ := effectOf_lrcSide hj s (effectOf i s).crc
  refine ⟨_, (execAll_pair (exec_crcSide hlen hi)).trans (exec_lrcSide hlen' hj), ?_⟩
  rw [execAll_pair (exec_lrcSide hlen' hj), exec_crcSide (by simpa using hlen) hi, effectOf_crcSide hi, hsum, hlrc]
  rfl

end Sys2Proof.Machine
end
